-- ==== Sys2Proof/Word.lean ====
section
/-! DEFINITION. The value types of 00_scope.md rule R12: `Byte`, `Word`, and the KEYBITS field of a command word. -/

namespace Sys2Proof

/-- 8-bit unsigned value (R12). -/
abbrev Byte := BitVec 8

/-- 32-bit unsigned value, the width of every register and of every register access (R8 `REG_W`, R12). -/
abbrev Word := BitVec 32

/-- The 16-bit KEYBITS field of a command word (R81, R82), as written: it need not name a key size. -/
abbrev KeyBits := BitVec 16

end Sys2Proof
end

