-- ==== Sys2Proof/Syntax.lean ====
section
/-! DEFINITION. The six commands of 30_encoding.md rule R83, one constructor of `Instr` per row of spec/opcode_table.json,
with the operation names and key sizes the rules speak of. -/

namespace Sys2Proof

/-- The operations of R83 (the `op` of 10_state.md rule R21). -/
inductive Op where
  | expand
  | encb
  | decb
  | cbce
  | cbcd
  | ctr
  deriving DecidableEq, Repr

/-- KeySize, "enumerated variant {128, 192, 256}" (R7, R15). -/
inductive KeySize where
  | k128
  | k192
  | k256
  deriving DecidableEq, Repr

/-- A command: its operation and the KEYBITS field it carries. The only operand in the word is KEYBITS (R84); the field is
kept as written, because a value that names no key size is a command that ends in `InvalidKeySize` (R82, R205). -/
inductive Instr where
  | expand (keyBits : KeyBits)
  | encb (keyBits : KeyBits)
  | decb (keyBits : KeyBits)
  | cbce (keyBits : KeyBits)
  | cbcd (keyBits : KeyBits)
  | ctr (keyBits : KeyBits)
  deriving DecidableEq, Repr

end Sys2Proof
end

