-- ==== Sys2Proof/WellFormed.lean ====
section
/-! DEFINITION. The legal forms of a command: 30_encoding.md rule R82 gives the three legal values of KEYBITS; a command has
no other operand (R84), so nothing else can be ill formed. -/

namespace Sys2Proof

/-- The KEYBITS field of a command. -/
def Instr.keyBits : Instr → KeyBits
  | .expand kb => kb
  | .encb kb => kb
  | .decb kb => kb
  | .cbce kb => kb
  | .cbcd kb => kb
  | .ctr kb => kb

/-- R82: "Legal values: 128 (`0x0080`), 192 (`0x00C0`), 256 (`0x0100`)". -/
def legalKeyBits (kb : KeyBits) : Bool :=
  kb == 0x0080 || kb == 0x00C0 || kb == 0x0100

/-- A command is well formed when its KEYBITS is legal: one of the 18 forms of R88. -/
def Instr.wellFormed (i : Instr) : Bool :=
  legalKeyBits i.keyBits

end Sys2Proof
end

