-- ==== Sys2Proof/Decode.lean ====
section
/-! DEFINITION. From command words to commands and back: 30_encoding.md rules R80 to R88. There is one 32-bit format, so the
decoder reads one whole word; it is total, and it rejects by name. `decodeInstr` names the command of a word (check 1 of
60_exceptions.md rule R202); `decode` is the verdict of R87, with the key-size check (check 2) after it. -/

namespace Sys2Proof

/-- Why a word is no legal command (R87). -/
inductive DecodeReject where
  /-- RSVD is not 0, or OP is 0x0 or 0x7 to 0xF (R85, R86). -/
  | invalidCommand
  /-- KEYBITS is not 128, 192 or 256 (R82). -/
  | invalidKeySize
  deriving DecidableEq, Repr

/-- The number of bits of a key size (R82). -/
def KeySize.bits : KeySize → KeyBits
  | .k128 => 0x0080
  | .k192 => 0x00C0
  | .k256 => 0x0100

/-- The key size a KEYBITS field names, if it names one (R82). -/
def keySizeOf (kb : KeyBits) : Option KeySize :=
  if kb = 0x0080 then some .k128
  else if kb = 0x00C0 then some .k192
  else if kb = 0x0100 then some .k256
  else none

/-- The OP value of an operation (R83). -/
def Op.code : Op → BitVec 4
  | .expand => 0x1
  | .encb => 0x2
  | .decb => 0x3
  | .cbce => 0x4
  | .cbcd => 0x5
  | .ctr => 0x6

/-- The operation an OP value names (R83); 0x0 and 0x7 to 0xF are reserved (R86). -/
def opOf (code : BitVec 4) : Option Op :=
  if code = 0x1 then some .expand
  else if code = 0x2 then some .encb
  else if code = 0x3 then some .decb
  else if code = 0x4 then some .cbce
  else if code = 0x5 then some .cbcd
  else if code = 0x6 then some .ctr
  else none

/-- The command of an operation and a KEYBITS field. -/
def Op.instr : Op → KeyBits → Instr
  | .expand => .expand
  | .encb => .encb
  | .decb => .decb
  | .cbce => .cbce
  | .cbcd => .cbcd
  | .ctr => .ctr

/-- The operation of a command. -/
def Instr.op : Instr → Op
  | .expand _ => .expand
  | .encb _ => .encb
  | .decb _ => .decb
  | .cbce _ => .cbce
  | .cbcd _ => .cbcd
  | .ctr _ => .ctr

/-- `OP = c[3:0]` (R81). -/
def opField (c : Word) : BitVec 4 := c.extractLsb' 0 4

/-- `RSVD = c[15:4]` (R81). -/
def rsvdField (c : Word) : BitVec 12 := c.extractLsb' 4 12

/-- `KEYBITS = c[31:16]` (R81). -/
def keyBitsField (c : Word) : KeyBits := c.extractLsb' 16 16

/-- The command a word stands for, its KEYBITS as written: every word but those R85 and R86 call illegal. -/
def decodeInstr (c : Word) : Except DecodeReject Instr :=
  if rsvdField c = 0 then
    match opOf (opField c) with
    | some op => .ok (op.instr (keyBitsField c))
    | none => .error .invalidCommand
  else .error .invalidCommand

/-- The verdict of R87 on a word, in its order: the command's shape first, then its key size. -/
def decode (c : Word) : Except DecodeReject Instr :=
  match decodeInstr c with
  | .error e => .error e
  | .ok i => if i.wellFormed then .ok i else .error .invalidKeySize

/-- The word of a command: `(KEYBITS << 16) | OP`, RSVD 0 (R81, R88). -/
def encode (i : Instr) : Word :=
  i.keyBits ++ (0 : BitVec 12) ++ i.op.code

/-- The command of a word given as the opcode table numbers it: the table's one word is the 32-bit command word of R80, bit
0 least significant (R9), and every bit above `nbits` is 0. -/
def decodeTableWord (nbits w : Nat) : Option Instr :=
  match decodeInstr (BitVec.ofNat 32 (w % 2 ^ nbits)) with
  | .ok i => some i
  | .error _ => none

end Sys2Proof
end

