-- ==== Sys2Proof/Config.lean ====
section
/-! DEFINITION. What the spec leaves to the platform (00_scope.md rule R8: `CORE_BASE`, `mem_ok`) and the free values of
10_state.md rule R42 and 20_memory.md rule R71 (e). The platform's parameters are plain data that State carries, so that
a statement over every state is a statement over every platform (log entries 3 and 4). -/

namespace Sys2Proof

/-- The `kind` of a memory request: `R` or `W` (R8). -/
inductive AccessKind where
  | read
  | write
  deriving DecidableEq, Repr

/-- A row of the platform predicate `mem_ok` (R8, R65, D33): 16-byte requests of this kind are refused at every start
address from `first` to `last` inclusive. -/
structure RefusedRange where
  kind  : AccessKind
  first : Nat
  last  : Nat
  deriving DecidableEq, Repr

/-- The parameters of the platform (R8): where the register window lies (`CORE_BASE`, D32) and which 16-byte requests
the attached memory refuses (`mem_ok`, D33). -/
structure Platform where
  coreBase : Nat
  refused  : List RefusedRange
  deriving DecidableEq, Repr

/-- The unspecified 32-bit value of draw number `n` (R42): nothing constrains it. -/
opaque Config.freeWord : Nat → Word

/-- The unspecified byte of draw number `n` (R71 (e)): nothing constrains it. -/
opaque Config.freeByte : Nat → Byte

end Sys2Proof
end

