-- ==== Sys2Proof/Machine/State.lean ====
section
/-! DEFINITION. The state of one core instance (10_state.md rules R20 to R45), the attached message memory (R44) and, as the
model's own plain data, the environment's moves still to come and what the host has read. BUSY, ERR, KSV and the reserved
bits are views (R21, R25, R35; log entry 2): Machine/Flags.lean computes them. `ID` is hardwired (R23) and needs no field. -/

namespace Sys2Proof.Machine

/-- A block: `bytes[16]` (R12), byte 0 first. The 4x4 array of R140 is its flat form `t[row + 4·col]`. -/
abbrev Block := Vector Byte 16

/-- Message memory (R44, R60): the bytes that differ from what an unlisted address reads as, by rising address. -/
abbrev Memory := List Host.Cell

/-- What `BlockFn` of R177 gives for a block: the output block and the next IV, with the hidden state the block leaves (R36). -/
structure BlockResult where
  out    : Block
  iv     : Block
  work   : Block
  lastIn : Option Block
  deriving DecidableEq, Repr

/-- The completion codes of R200. -/
inductive ErrorCode where
  | ok
  | invalidCommand
  | invalidKeySize
  | scheduleMismatch
  | invalidInputLength
  | addressRange
  | overlapError
  | busError
  deriving DecidableEq, Repr

/-- `phase ::= Expand | Block(i) | Finish` (R21). -/
inductive Phase where
  | expand
  | block (i : Nat)
  | finish
  deriving DecidableEq, Repr

/-- What the sequencer holds while it runs a command: `Run(op, kb, phase)` of R21 and the hidden state of R36. -/
structure Run where
  op     : Op
  kb     : KeySize
  phase  : Phase
  /-- `src`, `dst` and `nblk`, latched at acceptance (R171). -/
  src    : Word
  dst    : Word
  nblk   : Nat
  /-- The 16-byte working state of the round pipeline as the last block step left it; none before the first (R36). -/
  work   : Option Block
  /-- The ciphertext block that CBCD saved in its last block step; none before the first (R36, R181). -/
  lastIn : Option Block
  deriving DecidableEq, Repr

/-- `seq ::= Idle | Run(op, kb, phase)` (R21). -/
inductive Seq where
  | idle
  | run (r : Run)
  deriving DecidableEq, Repr

/-- The registers of the window (R22), by name; `reserved` is any reserved offset (R35). -/
inductive Reg where
  | id
  | cmd
  | status
  | errcode
  | ksinfo
  | blkcnt
  | key (i : Fin 8)
  | iv (i : Fin 4)
  | din (i : Fin 4)
  | dout (i : Fin 4)
  | src
  | dst
  | len
  | rk (j : Fin 60)
  | reserved
  deriving DecidableEq, Repr

/-- A move of the environment of the core (R13): of the host, of reset, of the platform, or none, which leaves the turn to
the sequencer. Addresses of register accesses are in the host's address space, `size` is the access's width in bytes. -/
inductive Move where
  /-- The host reads a register (`RD`, R89). -/
  | regRead (addr size : Nat)
  /-- The host writes a register (`WR`, R89). -/
  | regWrite (addr size : Nat) (value : Word)
  /-- The host reads `n` bytes of message memory by its own means (`MRD`, R89). -/
  | memRead (addr n : Nat)
  /-- The host writes message memory by its own means (`MWR`, R89). -/
  | memWrite (addr : Nat) (bytes : List Byte)
  /-- The environment asserts reset (R230). -/
  | reset
  /-- The platform changes which requests its memory refuses (`mem_ok`, R8; 95_test_vectors.md program P5 repairs it). -/
  | setRefused (ranges : List RefusedRange)
  /-- The turn is the sequencer's. -/
  | sequencer
  deriving DecidableEq, Repr

/-- What stops the machine. No command that was accepted by the checks of R202 ever ends in one. -/
inductive Fault where
  /-- An access to an address outside the 2^32 bytes of R44. Raised by a host move that names such an address, and by a mode
  block step in a state that no submission reaches (R177: "no wrap: checked at submission"). Safe. -/
  | addressOutsideMemory
  /-- R175 has no line for this operation in this phase, for example EXPAND in `Block(i)`. Raised by a command's meaning in a
  state that no run reaches. Safe. -/
  | noSequencerStep
  deriving DecidableEq, Repr

/-- Moves to which the spec gives no meaning. No command is refused. -/
inductive Refusal where
  /-- An instruction whose meaning is not written yet. No arm of `exec` answers it. Safe. -/
  | notModelled (mnemonic : String)
  /-- A host access to the window of another width than 32 bits, at an offset that is no multiple of 4, or at an offset of 0x200
  or more: "the model refuses it (no meaning given)" (R63). Raised by the host's register moves. Safe. -/
  | hostAccessOutsideInterface
  /-- A host write of `[SRC, SRC+LEN)` or `[DST, DST+LEN)` while BUSY = 1: "The model gives the host no move that writes these
  ranges while BUSY" (R71 (e)). Raised by the host's memory writes. Safe. -/
  | hostWriteToBusyBuffer
  deriving DecidableEq, Repr

/-- The state of the machine. -/
structure State where
  /-- `CMD`, the last stored command word (R24). -/
  cmd         : Word
  /-- `STATUS.DONE` (R25). -/
  done        : Bool
  /-- `STATUS.WIGN` (R25). -/
  wign        : Bool
  /-- `ERRCODE.CODE` (R26). -/
  errCode     : ErrorCode
  /-- `KSINFO.KSSIZE` (R27): the key size of the stored schedule; none is the value 0, no valid schedule. -/
  ksSize      : Option KeySize
  /-- `BLKCNT` (R28). -/
  blkCnt      : Word
  /-- `KEY0..KEY7` (R29). -/
  key         : Vector Word 8
  /-- `IV0..IV3` (R30). -/
  iv          : Vector Word 4
  /-- `DIN0..DIN3` (R31). -/
  din         : Vector Word 4
  /-- `DOUT0..DOUT3` (R32). -/
  dout        : Vector Word 4
  /-- `SRC`, `DST`, `LEN` (R33). -/
  src         : Word
  dst         : Word
  len         : Word
  /-- The round-key store `RK0..RK59` (R34). -/
  rk          : Vector Word 60
  /-- The sequencer (R21) with its hidden state (R36). -/
  seq         : Seq
  /-- The attached message memory (R44). -/
  mem         : Memory
  /-- The platform's parameters `CORE_BASE` and `mem_ok` (R8). -/
  platform    : Platform
  /-- The moves the environment has still to make, the next one first (the model's own field). -/
  moves       : List Move
  /-- The value the host's last register read returned (the model's own field). -/
  lastRead    : Word
  /-- The bytes the host's last memory read returned (the model's own field). -/
  lastMemRead : List Byte
  /-- How many unspecified values have been drawn (R42; the model's own field). -/
  draws       : Nat
  deriving DecidableEq, Repr

/-- The machine after reset (R45, R230): every register 0, the sequencer Idle. Reset does not touch the message memory
(R230), so what memory, platform and environment hold there is the model's choice (log entries 3, 4, 5, 6 and 15). -/
def State.reset : State where
  cmd         := 0
  done        := false
  wign        := false
  errCode     := .ok
  ksSize      := none
  blkCnt      := 0
  key         := Vector.replicate 8 0
  iv          := Vector.replicate 4 0
  din         := Vector.replicate 4 0
  dout        := Vector.replicate 4 0
  src         := 0
  dst         := 0
  len         := 0
  rk          := Vector.replicate 60 0
  seq         := .idle
  mem         := []
  platform    := ⟨0, []⟩
  moves       := []
  lastRead    := 0
  lastMemRead := []
  draws       := 0

end Sys2Proof.Machine
end

