-- ==== Sys2Proof/Machine/Operands.lean ====
section
/-! DEFINITION. The operand forms: the byte order of 00_scope.md rule R10 and 20_memory.md rule R61, blocks held in registers
(10_state.md rules R30 to R32), the 128-bit counter (43_modes.md rule R182), and the key-size parameters of R7. -/

namespace Sys2Proof.Machine

/-- `byte_k(w) = w[31-8k : 24-8k]`, byte `k` of a word from the most significant (R10). -/
def byteOf (w : Word) (k : Nat) : Byte :=
  w.extractLsb' (24 - 8 * k) 8

/-- `be32(b0, b1, b2, b3)`: big-endian word assembly (R10). -/
def be32 (b0 b1 b2 b3 : Byte) : Word :=
  b0 ++ b1 ++ b2 ++ b3

/-- The block of four block registers: byte `4i + j` is `byte_j` of register `i` (R30, R31, R61). -/
def blockOfWords (v : Vector Word 4) : Block :=
  Vector.ofFn fun n => byteOf v[n.val / 4] (n.val % 4)

/-- The four block registers of a block: register `i` is `be32(b[4i..4i+3])` (R30, R32, R61). -/
def wordsOfBlock (b : Block) : Vector Word 4 :=
  Vector.ofFn fun i => be32 b[4 * i.val] b[4 * i.val + 1] b[4 * i.val + 2] b[4 * i.val + 3]

/-- Bytewise exclusive-or of two 16-byte strings (R10). -/
def xorBlock (a b : Block) : Block :=
  Vector.ofFn fun n => a[n] ^^^ b[n]

/-- The big-endian integer of a byte string: each byte weighs `2^8` to the number of bytes after it (R10). -/
def beNat : List Byte → Nat
  | [] => 0
  | b :: bs => b.toNat * 2 ^ (8 * bs.length) + beNat bs

/-- `be128(b)`: the sum over `j` of `b[j] * 2^(8*(15-j))` (R10). -/
def be128 (b : Block) : Nat := beNat b.toList

/-- `to_be128(n)`, the inverse of `be128` (R10). -/
def toBe128 (n : Nat) : Block :=
  Vector.ofFn fun j => BitVec.ofNat 8 (n / 2 ^ (8 * (15 - j.val)))

/-- The next CTR counter: the 128-bit big-endian increment, wrapping (R182, R183). -/
def nextCounter (b : Block) : Block :=
  toBe128 ((be128 b + 1) % 2 ^ 128)

end Sys2Proof.Machine

namespace Sys2Proof

/-- `Nk = kb / 32`, the key's length in words (R7, R120). -/
def KeySize.nk (k : KeySize) : Nat := k.bits.toNat / 32

/-- `Nr = Nk + 6`, the number of rounds (R7, R120). -/
def KeySize.nr (k : KeySize) : Nat := k.nk + 6

/-- `4(Nr+1)`, the number of words of the schedule (R7). -/
def KeySize.scheduleWords (k : KeySize) : Nat := 4 * (k.nr + 1)

end Sys2Proof
end

