-- ==== Sys2Proof/Machine/Field.lean ====
section
/-! DEFINITION. The finite-field primitives of 40_primitives.md: GF(2^8), the S-box and its inverse as the tables of rules
R105 and R107, the word transforms and the round constants. All are pure and total. -/

namespace Sys2Proof.Machine

/-- `xtime(a) = ((a << 1) ^ (a[7] = 1 ? 0x11B : 0))[7:0]` (R102). -/
def xtime (a : Byte) : Byte :=
  ((a.setWidth 9 <<< 1) ^^^ (if a.msb then 0x11B else 0 : BitVec 9)).setWidth 8

/-- One turn of the loop of R101 on the pair `(p, a)`. -/
def gmulTurn (b : Byte) (pa : Byte × Byte) (i : Nat) : Byte × Byte :=
  (if b.getLsbD i then pa.1 ^^^ pa.2 else pa.1, xtime pa.2)

/-- `a • b`, multiplication modulo `x^8 + x^4 + x^3 + x + 1` (R101). -/
def gmul (a b : Byte) : Byte :=
  ((List.range 8).foldl (gmulTurn b) (0, a)).1

/-- One turn of `ginv`: square, and multiply the square into the product. -/
def ginvTurn (pa : Byte × Byte) (_ : Nat) : Byte × Byte :=
  (gmul pa.1 (gmul pa.2 pa.2), gmul pa.2 pa.2)

/-- `ginv(a)` of R103, computed as `a^254` (log entry 17): the inverse of `a`, and 0 for 0. -/
def ginv (a : Byte) : Byte :=
  ((List.range 7).foldl ginvTurn (1, a)).1

/-- The affine transformation of R104, on the inverse `b`. -/
def affine (b : Byte) : Byte :=
  b ^^^ b.rotateLeft 1 ^^^ b.rotateLeft 2 ^^^ b.rotateLeft 3 ^^^ b.rotateLeft 4 ^^^ 0x63

/-- The rows of the table of R105, row `x[7:4]`, the columns `0` to `F` from left to right. -/
def sboxRows : List Nat :=
  [
   0x637c777bf26b6fc53001672bfed7ab76,
   0xca82c97dfa5947f0add4a2af9ca472c0,
   0xb7fd9326363ff7cc34a5e5f171d83115,
   0x04c723c31896059a071280e2eb27b275,
   0x09832c1a1b6e5aa0523bd6b329e32f84,
   0x53d100ed20fcb15b6acbbe394a4c58cf,
   0xd0efaafb434d338545f9027f503c9fa8,
   0x51a3408f929d38f5bcb6da2110fff3d2,
   0xcd0c13ec5f974417c4a77e3d645d1973,
   0x60814fdc222a908846eeb814de5e0bdb,
   0xe0323a0a4906245cc2d3ac629195e479,
   0xe7c8376d8dd54ea96c56f4ea657aae08,
   0xba78252e1ca6b4c6e8dd741f4bbd8b8a,
   0x703eb5664803f60e613557b986c11d9e,
   0xe1f8981169d98e949b1e87e9ce5528df,
   0x8ca1890dbfe6426841992d0fb054bb16]

/-- The rows of the table of R107, laid out as in R105. -/
def invSboxRows : List Nat :=
  [
   0x52096ad53036a538bf40a39e81f3d7fb,
   0x7ce339829b2fff87348e4344c4dee9cb,
   0x547b9432a6c2233dee4c950b42fac34e,
   0x082ea16628d924b2765ba2496d8bd125,
   0x72f8f66486689816d4a45ccc5d65b692,
   0x6c704850fdedb9da5e154657a78d9d84,
   0x90d8ab008cbcd30af7e45805b8b34506,
   0xd02c1e8fca3f0f02c1afbd0301138a6b,
   0x3a9111414f67dcea97f2cfcef0b4e673,
   0x96ac7422e7ad3585e2f937e81c75df6e,
   0x47f11a711d29c5896fb7620eaa18be1b,
   0xfc563e4bc6d279209adbc0fe78cd5af4,
   0x1fdda8338807c731b11210592780ec5f,
   0x60517fa919b54a0d2de57a9f93c99cef,
   0xa0e03b4dae2af5b0c8ebbb3c83539961,
   0x172b047eba77d626e169146355210c7d]

/-- The entry of a table at row `x[7:4]`, column `x[3:0]` (R105, R107). -/
def tableEntry (rows : List Nat) (x : Byte) : Byte :=
  BitVec.ofNat 8 (rows.getD (x.toNat / 16) 0 >>> (8 * (15 - x.toNat % 16)))

/-- `Sbox(x)` (R105). -/
def sbox (x : Byte) : Byte := tableEntry sboxRows x

/-- `InvSbox(y)` (R107). -/
def invSbox (y : Byte) : Byte := tableEntry invSboxRows y

/-- `SubWord(w)`: the S-box on each of the four bytes (R109). -/
def subWord (w : Word) : Word :=
  be32 (sbox (byteOf w 0)) (sbox (byteOf w 1)) (sbox (byteOf w 2)) (sbox (byteOf w 3))

/-- `RotWord(w)`: `[a0,a1,a2,a3] → [a1,a2,a3,a0]` (R110). -/
def rotWord (w : Word) : Word :=
  be32 (byteOf w 1) (byteOf w 2) (byteOf w 3) (byteOf w 0)

/-- The round-constant bytes `rc[1..10]` (R112). -/
def roundConstants : List Byte :=
  [0x01, 0x02, 0x04, 0x08, 0x10, 0x20, 0x40, 0x80, 0x1B, 0x36]

/-- `Rcon[i] = rc[i] << 24`, for `i` from 1 to 10, the only ones that exist (R113). -/
def rcon (i : Nat) : Word :=
  be32 (roundConstants.getD (i - 1) 0) 0 0 0

end Sys2Proof.Machine
end

