-- ==== Sys2Proof/Machine/KeySchedule.lean ====
section
/-! DEFINITION. The key scheduler of 41_key_schedule.md: the recurrence of R121 and the round keys of R125, as pure functions of
the key words and the key size. -/

namespace Sys2Proof.Machine

/-- The `temp` that word `i` of the schedule is made with, from word `i - 1` (R121). -/
def scheduleTemp (nk i : Nat) (prev : Word) : Word :=
  if i % nk = 0 then subWord (rotWord prev) ^^^ rcon (i / nk)
  else if nk = 8 ∧ i % 8 = 4 then subWord prev
  else prev

/-- `w[i] <- w[i-Nk] ^ temp` (R121), from the words before it. -/
def scheduleWord (nk : Nat) (w : List Word) (i : Nat) : Word :=
  w.getD (i - nk) 0 ^^^ scheduleTemp nk i (w.getD (i - 1) 0)

/-- The loop of R121: the key words, then `n` words more. -/
def extendSchedule (nk : Nat) (key : List Word) : Nat → List Word
  | 0 => key
  | n + 1 =>
    extendSchedule nk key n ++ [scheduleWord nk (extendSchedule nk key n) (nk + n)]

/-- `KeyExpansion(key, kb)` (R121), on the `Nk` key words. -/
def keyExpansion (key : List Word) (k : KeySize) : List Word :=
  extendSchedule k.nk key (k.scheduleWords - k.nk)

/-- The key words an expansion reads: `KEY[0]` to `KEY[Nk-1]` (R120). -/
def keyWords (key : Vector Word 8) (k : KeySize) : List Word :=
  key.toList.take k.nk

/-- The round-key store after an expansion: the schedule, and 0 above it (R34, R126). -/
def roundKeyStore (key : Vector Word 8) (k : KeySize) : Vector Word 60 :=
  Vector.ofFn fun j =>
    if j.val < k.scheduleWords then (keyExpansion (keyWords key k) k).getD j.val 0 else 0

/-- Round key `r` as a 16-byte string: `rk_r[4c + j] = byte_j(w[4r+c])` (R125). -/
def roundKey (w : List Word) (r : Nat) : Block :=
  Vector.ofFn fun n => byteOf (w.getD (4 * r + n.val / 4) 0) (n.val % 4)

end Sys2Proof.Machine
end

