-- ==== Sys2Proof/Machine/Cipher.lean ====
section
/-! DEFINITION. The block cipher core of 42_block_core.md: the round transformations on the flat form `t[row + 4·col]` of the
state (R140), and the two block functions `Cipher` and `InvCipher`. `w` is the schedule, at least `4(Nr+1)` words. -/

namespace Sys2Proof.Machine

/-- `AddRoundKey(s, r)`: `t[n] <- t[n] ^ rk_r[n]` (R141). -/
def addRoundKey (w : List Word) (r : Nat) (t : Block) : Block :=
  xorBlock t (roundKey w r)

/-- `SubBytes` (R142). -/
def subBytes (t : Block) : Block :=
  Vector.ofFn fun n => sbox t[n]

/-- `InvSubBytes` (R145). -/
def invSubBytes (t : Block) : Block :=
  Vector.ofFn fun n => invSbox t[n]

/-- The permutation `SR` of R143. -/
def shiftRowsIndex : Vector (Fin 16) 16 :=
  #v[0, 5, 10, 15, 4, 9, 14, 3, 8, 13, 2, 7, 12, 1, 6, 11]

/-- The permutation `ISR` of R146. -/
def invShiftRowsIndex : Vector (Fin 16) 16 :=
  #v[0, 13, 10, 7, 4, 1, 14, 11, 8, 5, 2, 15, 12, 9, 6, 3]

/-- `ShiftRows`: `t'[n] = t[SR[n]]` (R143). -/
def shiftRows (t : Block) : Block :=
  Vector.ofFn fun n => t[shiftRowsIndex[n]]

/-- `InvShiftRows`: `t'[n] = t[ISR[n]]` (R146). -/
def invShiftRows (t : Block) : Block :=
  Vector.ofFn fun n => t[invShiftRowsIndex[n]]

/-- A column `(a0, a1, a2, a3)` of the state (R140, R144). -/
abbrev Column := Vector Byte 4

/-- Column `c` of the state: bytes `4c` to `4c+3` of the block (R140). -/
def columnOf (t : Block) (c : Fin 4) : Column :=
  #v[t[4 * c.val], t[4 * c.val + 1], t[4 * c.val + 2], t[4 * c.val + 3]]

/-- Replaces each column of the state on its own (R148). -/
def onColumns (f : Column → Column) (t : Block) : Block :=
  Vector.ofFn fun n => (f (columnOf t ⟨n.val / 4, by omega⟩))[n.val % 4]

/-- The column of R144. -/
def mixColumn (a : Column) : Column :=
  #v[gmul 0x02 a[0] ^^^ gmul 0x03 a[1] ^^^ a[2] ^^^ a[3],
     a[0] ^^^ gmul 0x02 a[1] ^^^ gmul 0x03 a[2] ^^^ a[3],
     a[0] ^^^ a[1] ^^^ gmul 0x02 a[2] ^^^ gmul 0x03 a[3],
     gmul 0x03 a[0] ^^^ a[1] ^^^ a[2] ^^^ gmul 0x02 a[3]]

/-- The column of R147. -/
def invMixColumn (a : Column) : Column :=
  #v[gmul 0x0E a[0] ^^^ gmul 0x0B a[1] ^^^ gmul 0x0D a[2] ^^^ gmul 0x09 a[3],
     gmul 0x09 a[0] ^^^ gmul 0x0E a[1] ^^^ gmul 0x0B a[2] ^^^ gmul 0x0D a[3],
     gmul 0x0D a[0] ^^^ gmul 0x09 a[1] ^^^ gmul 0x0E a[2] ^^^ gmul 0x0B a[3],
     gmul 0x0B a[0] ^^^ gmul 0x0D a[1] ^^^ gmul 0x09 a[2] ^^^ gmul 0x0E a[3]]

/-- `MixColumns` (R144). -/
def mixColumns (t : Block) : Block := onColumns mixColumn t

/-- `InvMixColumns` (R147). -/
def invMixColumns (t : Block) : Block := onColumns invMixColumn t

/-- A round `r` of 1 to Nr-1: SubBytes, ShiftRows, MixColumns, AddRoundKey (R149). -/
def cipherRound (w : List Word) (r : Nat) (t : Block) : Block :=
  addRoundKey w r (mixColumns (shiftRows (subBytes t)))

/-- The rounds 1 to `n`, in rising order (R149). -/
def cipherRounds (w : List Word) : Nat → Block → Block
  | 0, t => t
  | n + 1, t => cipherRound w (n + 1) (cipherRounds w n t)

/-- `Cipher(in, w, Nr)` (R149); the final round has no MixColumns (R150). -/
def cipher (w : List Word) (nr : Nat) (b : Block) : Block :=
  addRoundKey w nr (shiftRows (subBytes (cipherRounds w (nr - 1) (addRoundKey w 0 b))))

/-- A round `r` of Nr-1 down to 1: InvShiftRows, InvSubBytes, AddRoundKey, InvMixColumns (R151). -/
def invCipherRound (w : List Word) (r : Nat) (t : Block) : Block :=
  invMixColumns (addRoundKey w r (invSubBytes (invShiftRows t)))

/-- The rounds `n` down to 1 (R151). -/
def invCipherRounds (w : List Word) : Nat → Block → Block
  | 0, t => t
  | n + 1, t => invCipherRounds w n (invCipherRound w (n + 1) t)

/-- `InvCipher(in, w, Nr)` (R151, with the final step as 90_conflicts.md C1 resolves it). -/
def invCipher (w : List Word) (nr : Nat) (b : Block) : Block :=
  addRoundKey w 0 (invSubBytes (invShiftRows (invCipherRounds w (nr - 1) (addRoundKey w nr b))))

end Sys2Proof.Machine
end

