-- ==== Sys2Proof/Machine/Flags.lean ====
section
/-! DEFINITION. The status flags: the views BUSY, ERR and KSV (10_state.md rules R21, R25), the words `STATUS`, `ERRCODE` and
`KSINFO` read as (R25 to R27), and the writes that change a flag: WIGN set (R43) and cleared (R25). -/

namespace Sys2Proof.Machine

/-- The number of a completion code (R200). -/
def ErrorCode.code : ErrorCode → BitVec 4
  | .ok => 0
  | .invalidCommand => 1
  | .invalidKeySize => 2
  | .scheduleMismatch => 3
  | .invalidInputLength => 4
  | .addressRange => 5
  | .overlapError => 6
  | .busError => 7

/-- `STATUS.BUSY`: "`seq = Idle` if and only if `STATUS.BUSY = 0`" (R21). -/
def State.busy (s : State) : Bool :=
  match s.seq with
  | .idle => false
  | .run _ => true

/-- `STATUS.ERR`: `ERRCODE.CODE ≠ 0` (R25). -/
def State.err (s : State) : Bool := s.errCode.code != 0

/-- `KSINFO.KSSIZE` as a number, 0 when there is no valid schedule (R27). -/
def State.ksSizeBits (s : State) : KeyBits :=
  match s.ksSize with
  | none => 0
  | some k => k.bits

/-- `STATUS.KSV`: `KSINFO.KSSIZE ≠ 0` (R25). -/
def State.ksv (s : State) : Bool := s.ksSizeBits != 0

/-- `STATUS` as it reads: BUSY bit 0, DONE bit 1, ERR bit 2, KSV bit 3, WIGN bit 4, the rest 0 (R25). -/
def statusWord (s : State) : Word :=
  (0 : BitVec 27) ++ BitVec.ofBool s.wign ++ BitVec.ofBool s.ksv ++ BitVec.ofBool s.err ++ BitVec.ofBool s.done
    ++ BitVec.ofBool s.busy

/-- `ERRCODE` as it reads: CODE in bits 3:0, the rest 0 (R26). -/
def errcodeWord (s : State) : Word := (0 : BitVec 28) ++ s.errCode.code

/-- `KSINFO` as it reads: KSSIZE in bits 15:0, the rest 0 (R27). -/
def ksinfoWord (s : State) : Word := (0 : BitVec 16) ++ s.ksSizeBits

/-- A write of `STATUS`: bit 4 = 1 clears WIGN, every other bit is ignored (R25). -/
def writeStatus (v : Word) (s : State) : State :=
  { s with wign := s.wign && !v.getLsbD 4 }

/-- A write that is ignored because BUSY = 1: only WIGN changes (R43). -/
def ignoreWrite (s : State) : State :=
  { s with wign := true }

end Sys2Proof.Machine
end

