-- ==== Sys2Proof/Machine/Ops.lean ====
section
/-! DEFINITION. The shared operations: message memory (20_memory.md), the submission checks (60_exceptions.md rule R202), error
completion, which is this hardware's only exception (R203, R214), acceptance and normal completion (43_modes.md rules R171,
R176), and the sequencer's steps (R175, R177; 41_key_schedule.md rule R126). The meanings of the commands are built on them. -/

namespace Sys2Proof.Machine

/-- What a step answers. -/
abbrev Answer := Host.Outcome State Fault Refusal

/-! ### Message memory (R44, R60, R65) -/

/-- What a byte of memory that nothing has written reads as (log entry 5: the spec gives memory no contents at reset). -/
def unlistedByte : Byte := 0

/-- The byte at an address. -/
def Memory.readByte : Memory → Nat → Byte
  | [], _ => unlistedByte
  | (k, v) :: m, a => if a = k then v else Memory.readByte m a

/-- A cell in front of a memory, unless it holds what an unlisted address reads as. -/
def Memory.consCell (a : Nat) (v : Byte) (m : Memory) : Memory :=
  if v = unlistedByte then m else (a, v) :: m

/-- The memory with one byte written, in canonical form. -/
def Memory.writeByte : Memory → Nat → Byte → Memory
  | [], a, v => Memory.consCell a v []
  | (k, u) :: m, a, v =>
    if a < k then Memory.consCell a v ((k, u) :: m)
    else if a = k then Memory.consCell a v m
    else (k, u) :: Memory.writeByte m a v

/-- Bytes written at rising addresses from `a`. -/
def Memory.writeBytes (m : Memory) (a : Nat) : List Byte → Memory
  | [] => m
  | v :: vs => Memory.writeBytes (Memory.writeByte m a v) (a + 1) vs

/-- `MemRead(a, 16)`: byte `j` from `a + j` (R11, R60). -/
def Memory.readBlock (m : Memory) (a : Nat) : Block :=
  Vector.ofFn fun j => Memory.readByte m (a + j.val)

/-- `MemWrite(a, 16, b)`: `b[j]` to `a + j` (R11, R60). -/
def Memory.writeBlock (m : Memory) (a : Nat) (b : Block) : Memory :=
  Memory.writeBytes m a b.toList

/-- The number of addresses of the message memory, `2^32` (R44). -/
def memorySize : Nat := 2 ^ 32

/-- Whether the `n` bytes from `a` all exist (R44). -/
def insideMemory (a n : Nat) : Bool := a + n ≤ memorySize

/-- The canonical form of memory: addresses strictly rising and existing, no cell that an unlisted address reads as. -/
abbrev Memory.wf (m : Memory) : Prop :=
  m.Pairwise (fun c d => c.1 < d.1) ∧ ∀ c ∈ m, c.1 < memorySize ∧ c.2 ≠ unlistedByte

/-- `mem_ok(kind, a, 16)`: the memory admits the request whole unless a row of the platform's list refuses it (R8, R65). -/
def memOk (p : Platform) (kind : AccessKind) (a : Nat) : Bool :=
  !p.refused.any fun r => r.kind == kind && decide (r.first ≤ a) && decide (a ≤ r.last)

/-! ### Error completion and normal completion -/

/-- `raise Error(code)`, error completion: the one exception of this hardware and its entry (R203, R214). There is no return
from it to model: the next command simply follows (R215). -/
def raiseError (code : ErrorCode) (s : State) : State :=
  { s with errCode := code, done := true, seq := .idle }

/-- `complete()`, normal completion (R176). -/
def complete (s : State) : State :=
  { s with done := true, seq := .idle }

/-! ### Submission (R170, R202) -/

/-- Whether a command builds its key schedule first: EXPAND, CBCE, CBCD and CTR (R171, R179). -/
def buildsSchedule : Op → Bool
  | .expand => true
  | .encb => false
  | .decb => false
  | .cbce => true
  | .cbcd => true
  | .ctr => true

/-- The run an accepted command starts with: its first phase, and `src`, `dst` and `nblk` latched (R171). -/
def startRun (op : Op) (k : KeySize) (s : State) : Run where
  op     := op
  kb     := k
  phase  := if buildsSchedule op then .expand else .block 0
  src    := s.src
  dst    := s.dst
  nblk   := s.len.toNat / 16
  work   := none
  lastIn := none

/-- Acceptance of command `(op, kb)` (R171). WIGN keeps its value. -/
def accept (op : Op) (k : KeySize) (s : State) : State :=
  { s with done := false, errCode := .ok, blkCnt := 0, seq := .run (startRun op k s) }

/-- No check beyond 1 and 2 of R202: EXPAND. -/
def checkNothing (_ : KeySize) (_ : State) : Option ErrorCode := none

/-- Check 3 of R202, for ENCB and DECB: `KSSIZE ≠ kb` (R206). -/
def checkSchedule (k : KeySize) (s : State) : Option ErrorCode :=
  if s.ksSize = some k then none else some .scheduleMismatch

/-- Checks 4, 5 and 6 of R202 in their order, for CBCE, CBCD and CTR, on unbounded integers (R208, R210, R211). -/
def checkMessage (_ : KeySize) (s : State) : Option ErrorCode :=
  if s.len.toNat % 16 ≠ 0 then some .invalidInputLength
  else if 0 < s.len.toNat ∧
      (2 ^ 32 < s.src.toNat + s.len.toNat ∨ 2 ^ 32 < s.dst.toNat + s.len.toNat) then some .addressRange
  else if 0 < s.len.toNat ∧ s.src ≠ s.dst ∧
      max s.src.toNat s.dst.toNat < min s.src.toNat s.dst.toNat + s.len.toNat then some .overlapError
  else none

/-- The submission of a command whose word passed check 1 of R202: check 2, the command's further checks, and then rejection
(R203) or acceptance (R171), all in one step (R170). -/
def submit (op : Op) (kb : KeyBits) (check : KeySize → State → Option ErrorCode) (s : State) : State :=
  match keySizeOf kb with
  | none => raiseError .invalidKeySize s
  | some k =>
    match check k s with
    | some e => raiseError e s
    | none => accept op k s

/-- The next transition of command `(op, kb)`: its submission when the sequencer is Idle (R170), the sequencer's step when it
is running this command (R175). While another command runs, a submission is ignored (R43, R170; log entry 9). -/
def perform (op : Op) (kb : KeyBits) (check : KeySize → State → Option ErrorCode) (sequence : Run → State → Answer)
    (s : State) : Answer :=
  match s.seq with
  | .idle => .next (submit op kb check s)
  | .run r => if r.op = op ∧ r.kb.bits = kb then sequence r s else .next (ignoreWrite s)

/-! ### The sequencer's steps (R175) -/

/-- `ExpandStep(kb)` (R126). -/
def expandStep (k : KeySize) (s : State) : State :=
  { s with rk := roundKeyStore s.key k, ksSize := some k }

/-- The sequencer enters a phase of its run. -/
def enterPhase (r : Run) (p : Phase) (s : State) : State :=
  { s with seq := .run { r with phase := p } }

/-- The first line of R175: the key expansion, then Finish for EXPAND and for an empty message, else the first block. -/
def expandPhase (r : Run) (s : State) : State :=
  enterPhase r (if r.op = .expand ∨ r.nblk = 0 then .finish else .block 0) (expandStep r.kb s)

/-- The schedule the round pipeline uses: `RK[0 .. 4(Nr+1)-1]` (R160). -/
def schedule (k : KeySize) (s : State) : List Word :=
  s.rk.toList.take k.scheduleWords

/-- The single block step of ENCB and DECB: the block in `DIN` through a block function into `DOUT` (R160, R161, R175). -/
def singleBlockStep (f : List Word → Nat → Block → Block) (r : Run) (s : State) : State :=
  let out := f (schedule r.kb s) r.kb.nr (blockOfWords s.din)
  { s with
    dout := wordsOfBlock out
    seq := .run { r with phase := .finish, work := some out } }

/-- The address of block `i` of the message and of its output: `src + 16*i`, `dst + 16*i` (R177). -/
def blockAddress (base : Word) (i : Nat) : Nat := base.toNat + 16 * i

/-- The phase after block `i` (R175). -/
def phaseAfter (nblk i : Nat) : Phase :=
  if i + 1 < nblk then .block (i + 1) else .finish

/-- What `BlockFn` gives for block `i` of the running message (R177): from the block read, the IV registers and the schedule. -/
def blockResult (f : List Word → Nat → Block → Block → BlockResult) (r : Run) (i : Nat) (s : State) : BlockResult :=
  f (schedule r.kb s) r.kb.nr (s.mem.readBlock (blockAddress r.src i)) (blockOfWords s.iv)

/-- The effects of a block step whose two requests were admitted, in the order of R177: the output block, IV, BLKCNT. -/
def finishBlock (b : BlockResult) (r : Run) (i : Nat) (s : State) : State :=
  { s with
    mem := s.mem.writeBlock (blockAddress r.dst i) b.out
    iv := wordsOfBlock b.iv
    blkCnt := BitVec.ofNat 32 (i + 1)
    seq := .run { r with phase := phaseAfter r.nblk i, work := some b.work, lastIn := b.lastIn } }

/-- `ModeBlockStep(op, kb, i)` (R177): the read checked first, then the write; a refused request ends the command with
`BusError` and leaves memory, IV and BLKCNT as they are. No submitted message leaves the address space, so the fault
stands for states no run reaches. -/
def modeBlockStep (f : List Word → Nat → Block → Block → BlockResult) (r : Run) (i : Nat) (s : State) : Answer :=
  if !(insideMemory (blockAddress r.src i) 16 && insideMemory (blockAddress r.dst i) 16) then .fault .addressOutsideMemory
  else if !memOk s.platform .read (blockAddress r.src i) then .next (raiseError .busError s)
  else if !memOk s.platform .write (blockAddress r.dst i) then .next (raiseError .busError s)
  else .next (finishBlock (blockResult f r i s) r i s)

end Sys2Proof.Machine
end

