-- ==== Sys2Proof/Machine/Expand.lean ====
section
/-! DEFINITION. The key-schedule command: EXPAND (41_key_schedule.md rule R127). -/

namespace Sys2Proof.Machine

/-- The sequencer steps of EXPAND: ExpandStep, Finish (R174, R175). -/
def expandSequence (r : Run) (s : State) : Answer :=
  match r.phase with
  | .expand => .next (expandPhase r s)
  | .block _ => .fault .noSequencerStep
  | .finish => .next (complete s)

/-- EXPAND (R127): checks 1 and 2 of R202, then ExpandStep and completion. -/
def execExpand (kb : KeyBits) (s : State) : Answer :=
  perform .expand kb checkNothing expandSequence s

end Sys2Proof.Machine
end

