-- ==== Sys2Proof/Machine/Modes.lean ====
section
/-! DEFINITION. The mode commands: CBCE, CBCD and CTR (43_modes.md rules R180 to R182). -/

namespace Sys2Proof.Machine

/-- `BlockFn(CBCE, kb, x, iv)` (R180): the ciphertext block is the output and the next feedback. -/
def cbceBlock (w : List Word) (nr : Nat) (x iv : Block) : BlockResult :=
  { out := cipher w nr (xorBlock x iv)
    iv := cipher w nr (xorBlock x iv)
    work := cipher w nr (xorBlock x iv)
    lastIn := none }

/-- `BlockFn(CBCD, kb, x, iv)` (R181): the ciphertext block is saved as `lastIn` and becomes the next feedback. -/
def cbcdBlock (w : List Word) (nr : Nat) (x iv : Block) : BlockResult :=
  { out := xorBlock (invCipher w nr x) iv
    iv := x
    work := invCipher w nr x
    lastIn := some x }

/-- `BlockFn(CTR, kb, x, iv)` (R182): the input exclusive-or the encrypted counter, and the counter incremented. -/
def ctrBlock (w : List Word) (nr : Nat) (x iv : Block) : BlockResult :=
  { out := xorBlock x (cipher w nr iv)
    iv := nextCounter iv
    work := cipher w nr iv
    lastIn := none }

/-- The sequencer steps of a mode command: ExpandStep, `nblk` block steps, Finish (R174, R175). -/
def modeSequence (f : List Word → Nat → Block → Block → BlockResult) (r : Run) (s : State) : Answer :=
  match r.phase with
  | .expand => .next (expandPhase r s)
  | .block i => modeBlockStep f r i s
  | .finish => .next (complete s)

/-- CBCE (R180): checks 1, 2, 4, 5 and 6 of R202, ExpandStep, a block step per block, completion. -/
def execCbce (kb : KeyBits) (s : State) : Answer :=
  perform .cbce kb checkMessage (modeSequence cbceBlock) s

/-- CBCD (R181): as CBCE, with its own block function. -/
def execCbcd (kb : KeyBits) (s : State) : Answer :=
  perform .cbcd kb checkMessage (modeSequence cbcdBlock) s

/-- CTR (R182): as CBCE, with its own block function, in both directions. -/
def execCtr (kb : KeyBits) (s : State) : Answer :=
  perform .ctr kb checkMessage (modeSequence ctrBlock) s

end Sys2Proof.Machine
end

