-- ==== Sys2Proof/Machine/SingleBlock.lean ====
section
/-! DEFINITION. The single-block commands: ENCB and DECB (42_block_core.md rules R160, R161). -/

namespace Sys2Proof.Machine

/-- The sequencer steps of ENCB and DECB: one block step, Finish (R174, R175). -/
def singleBlockSequence (f : List Word → Nat → Block → Block) (r : Run) (s : State) : Answer :=
  match r.phase with
  | .block 0 => .next (singleBlockStep f r s)
  | .finish => .next (complete s)
  | .block (_ + 1) => .fault .noSequencerStep
  | .expand => .fault .noSequencerStep

/-- ENCB (R160): checks 1, 2 and 3 of R202, then `DOUT <- Cipher(DIN, RK, Nr)` and completion. -/
def execEncb (kb : KeyBits) (s : State) : Answer :=
  perform .encb kb checkSchedule (singleBlockSequence cipher) s

/-- DECB (R161): checks 1, 2 and 3 of R202, then `DOUT <- InvCipher(DIN, RK, Nr)` and completion. -/
def execDecb (kb : KeyBits) (s : State) : Answer :=
  perform .decb kb checkSchedule (singleBlockSequence invCipher) s

end Sys2Proof.Machine
end

