-- ==== Sys2Proof/Machine/Dispatch.lean ====
section
/-! DEFINITION. One arm per command of spec/opcode_table.json: `exec i s` is the next transition of command `i` in state `s`, its
submission when the sequencer is Idle and its next sequencer step (R175) when the sequencer is running it. -/

namespace Sys2Proof.Machine

def exec (i : Instr) (s : State) : Host.Outcome State Fault Refusal :=
  match i with
  | .expand kb => Sys2Proof.Machine.execExpand kb s
  | .encb kb => Sys2Proof.Machine.execEncb kb s
  | .decb kb => Sys2Proof.Machine.execDecb kb s
  | .cbce kb => Sys2Proof.Machine.execCbce kb s
  | .cbcd kb => Sys2Proof.Machine.execCbcd kb s
  | .ctr kb => Sys2Proof.Machine.execCtr kb s

end Sys2Proof.Machine
end

