-- ==== Sys2Proof/Machine/HostPort.lean ====
section
/-! DEFINITION. The moves of the core's environment (00_scope.md rule R13): the host's register accesses (10_state.md rules R22,
R35, R41 to R43; 20_memory.md rule R63), its accesses to message memory (R44, R71), reset (R230, R231), and the turn of the
sequencer. Machine/Step.lean takes one of them a step. -/

namespace Sys2Proof.Machine

/-! ### The register map (R22) -/

/-- The register at a byte offset from `CORE_BASE`; none where R63 puts the access outside the interface. -/
def regAt (off : Nat) : Option Reg :=
  if off % 4 ≠ 0 ∨ 0x200 ≤ off then none
  else if off = 0x000 then some .id
  else if off = 0x004 then some .cmd
  else if off = 0x008 then some .status
  else if off = 0x00C then some .errcode
  else if off = 0x010 then some .ksinfo
  else if off = 0x014 then some .blkcnt
  else if h : 0x020 ≤ off ∧ off < 0x040 then some (.key ⟨(off - 0x020) / 4, by omega⟩)
  else if h : 0x040 ≤ off ∧ off < 0x050 then some (.iv ⟨(off - 0x040) / 4, by omega⟩)
  else if h : 0x050 ≤ off ∧ off < 0x060 then some (.din ⟨(off - 0x050) / 4, by omega⟩)
  else if h : 0x060 ≤ off ∧ off < 0x070 then some (.dout ⟨(off - 0x060) / 4, by omega⟩)
  else if off = 0x070 then some .src
  else if off = 0x074 then some .dst
  else if off = 0x078 then some .len
  else if h : 0x100 ≤ off ∧ off < 0x1F0 then some (.rk ⟨(off - 0x100) / 4, by omega⟩)
  else some .reserved

/-- The offset of a register (R22); none for the reserved offsets, which are many. -/
def regOffset : Reg → Option Nat
  | .id => some 0x000
  | .cmd => some 0x004
  | .status => some 0x008
  | .errcode => some 0x00C
  | .ksinfo => some 0x010
  | .blkcnt => some 0x014
  | .key i => some (0x020 + 4 * i.val)
  | .iv i => some (0x040 + 4 * i.val)
  | .din i => some (0x050 + 4 * i.val)
  | .dout i => some (0x060 + 4 * i.val)
  | .src => some 0x070
  | .dst => some 0x074
  | .len => some 0x078
  | .rk j => some (0x100 + 4 * j.val)
  | .reserved => none

/-- The register a host access reaches: 32 bits wide, inside the window, at a multiple of 4 from `CORE_BASE` (R22, R63). -/
def windowReg (p : Platform) (addr size : Nat) : Option Reg :=
  if size = 4 ∧ p.coreBase ≤ addr then regAt (addr - p.coreBase) else none

/-! ### Register reads (R41, R42) -/

/-- `ID`: the ASCII bytes "AES1", hardwired (R23). -/
def idWord : Word := 0x41455331

/-- The exact current value of a register (R22 to R35). -/
def regValue (s : State) : Reg → Word
  | .id => idWord
  | .cmd => s.cmd
  | .status => statusWord s
  | .errcode => errcodeWord s
  | .ksinfo => ksinfoWord s
  | .blkcnt => s.blkCnt
  | .key i => s.key[i]
  | .iv i => s.iv[i]
  | .din i => s.din[i]
  | .dout i => s.dout[i]
  | .src => s.src
  | .dst => s.dst
  | .len => s.len
  | .rk j => s.rk[j]
  | .reserved => 0

/-- The registers the sequencer may be updating while BUSY: `DOUT*`, `IV*`, `RK*` and `KSINFO` (R42). -/
def Reg.volatile : Reg → Bool
  | .dout _ => true
  | .iv _ => true
  | .rk _ => true
  | .ksinfo => true
  | .id => false
  | .cmd => false
  | .status => false
  | .errcode => false
  | .blkcnt => false
  | .key _ => false
  | .din _ => false
  | .src => false
  | .dst => false
  | .len => false
  | .reserved => false

/-- A host read of a register: the exact value, or a draw while BUSY where R42 says so. It changes no state of the core (R41). -/
def readReg (r : Reg) (s : State) : State :=
  if s.busy && r.volatile then { s with lastRead := Config.freeWord s.draws, draws := s.draws + 1 }
  else { s with lastRead := regValue s r }

/-! ### Register writes (R22, R24, R25, R43, R170) -/

/-- A write to a writable register other than `STATUS`: lost while BUSY, with WIGN set (R43). -/
def unlessBusy (s : State) (write : Answer) : Answer :=
  if s.busy then .next (ignoreWrite s) else write

/-- Submission of the word stored in `CMD` (R170): the command's checks, or `InvalidCommand` where the word names none (R204). -/
def submitWord (c : Word) (s : State) : Answer :=
  match decodeInstr c with
  | .ok i => exec i s
  | .error _ => .next (raiseError .invalidCommand s)

/-- A host write of a register. Read-only registers and reserved offsets ignore it (R22, R35). -/
def writeReg (r : Reg) (v : Word) (s : State) : Answer :=
  match r with
  | .cmd => unlessBusy s (submitWord v { s with cmd := v })
  | .status => .next (writeStatus v s)
  | .key i => unlessBusy s (.next { s with key := s.key.set i v })
  | .iv i => unlessBusy s (.next { s with iv := s.iv.set i v })
  | .din i => unlessBusy s (.next { s with din := s.din.set i v })
  | .src => unlessBusy s (.next { s with src := v })
  | .dst => unlessBusy s (.next { s with dst := v })
  | .len => unlessBusy s (.next { s with len := v })
  | .id => .next s
  | .errcode => .next s
  | .ksinfo => .next s
  | .blkcnt => .next s
  | .dout _ => .next s
  | .rk _ => .next s
  | .reserved => .next s

/-! ### The host's accesses to message memory (R44, R71) -/

/-- Whether an address lies in `[SRC, SRC+LEN)` or `[DST, DST+LEN)` (R71 (e)). -/
def inBuffers (s : State) (a : Nat) : Bool :=
  (decide (s.src.toNat ≤ a) && decide (a < s.src.toNat + s.len.toNat)) ||
    (decide (s.dst.toNat ≤ a) && decide (a < s.dst.toNat + s.len.toNat))

/-- The byte a host read of memory gets: the byte there, or any value in the message buffers while BUSY (R71 (e); log entry 7). -/
def hostByte (s : State) (a draw : Nat) : Byte :=
  if s.busy && inBuffers s a then Config.freeByte draw else s.mem.readByte a

/-- The host reads `n` bytes of memory. -/
def readMemory (a n : Nat) (s : State) : Answer :=
  if insideMemory a n then
    .next { s with
      lastMemRead := (List.range n).map fun j => hostByte s (a + j) (s.draws + j)
      draws := s.draws + n }
  else .fault .addressOutsideMemory

/-- The host writes bytes to memory; while BUSY it has no move that writes the message buffers (R71 (e)). -/
def writeMemory (a : Nat) (bytes : List Byte) (s : State) : Answer :=
  if !insideMemory a bytes.length then .fault .addressOutsideMemory
  else if s.busy && (List.range bytes.length).any fun j => inBuffers s (a + j) then .refused .hostWriteToBusyBuffer
  else .next { s with mem := s.mem.writeBytes a bytes }

/-! ### Reset, the sequencer's turn, and every move -/

/-- Reset (R230, R231): every register, the round-key store and the sequencer as after reset; message memory, platform and
environment untouched. A running command is aborted and no code is recorded. -/
def resetCore (s : State) : State :=
  { State.reset with
    mem := s.mem
    platform := s.platform
    moves := s.moves
    lastRead := s.lastRead
    lastMemRead := s.lastMemRead
    draws := s.draws }

/-- The command the sequencer is running. -/
def Run.instr (r : Run) : Instr := r.op.instr r.kb.bits

/-- The sequencer's turn: the next step of the running command (R175); "`seq = Idle` has no sequencer step". -/
def sequencerTurn (s : State) : Answer :=
  match s.seq with
  | .idle => .next s
  | .run r => exec r.instr s

/-- One move of the environment. -/
def takeMove (m : Move) (s : State) : Answer :=
  match m with
  | .regRead addr size =>
    match windowReg s.platform addr size with
    | some r => .next (readReg r s)
    | none => .refused .hostAccessOutsideInterface
  | .regWrite addr size v =>
    match windowReg s.platform addr size with
    | some r => writeReg r v s
    | none => .refused .hostAccessOutsideInterface
  | .memRead a n => readMemory a n s
  | .memWrite a bytes => writeMemory a bytes s
  | .reset => .next (resetCore s)
  | .setRefused ranges => .next { s with platform := { s.platform with refused := ranges } }
  | .sequencer => sequencerTurn s

/-- A host write that reaches `CMD` of this core (R22, R24). -/
def cmdWrite (p : Platform) (c : Word) : Move := .regWrite (p.coreBase + 0x004) 4 c

/-- A command word as the next thing the core is given: the host's write of it to `CMD` is the next move, and the sequencer is
Idle, since while BUSY the write would submit nothing (R43, R170; log entry 14). -/
def placeCommand (c : Word) (s : State) : State :=
  { s with seq := .idle, moves := cmdWrite s.platform c :: s.moves }

end Sys2Proof.Machine
end

