-- ==== Sys2Proof/Machine/Step.lean ====
section
/-! DEFINITION. One step of the machine (43_modes.md rules R174, R175): the environment's next move, or, when it has none left,
the sequencer's turn. Every step is one atomic transition of the spec's model. -/

namespace Sys2Proof.Machine

/-- One step. -/
def step (s : State) : Host.Outcome State Fault Refusal :=
  match s.moves with
  | [] => sequencerTurn s
  | m :: rest => takeMove m { s with moves := rest }

/-- The state in which the very next step submits the command word `w`. The core fetches no instructions (R21): a command
reaches it by the host's write to `CMD`, which is put in front of the environment's moves (log entry 14). -/
def State.withFetchWord (s : State) (nbits w : Nat) : State :=
  placeCommand (BitVec.ofNat 32 (w % 2 ^ nbits)) s

end Sys2Proof.Machine
end

