-- ==== Sys2Proof/Safety.lean ====
section
/-! DEFINITION. The terms claims use: the invariant of the machine, and what a mode command does to a whole message (43_modes.md
rules R177 to R185), as functions of the message's blocks. -/

namespace Sys2Proof.Machine

/-- The mode commands: CBCE, CBCD and CTR (R177). -/
def isMode : Op → Bool
  | .expand => false
  | .encb => false
  | .decb => false
  | .cbce => true
  | .cbcd => true
  | .ctr => true

/-- The block functions of the modes (R180, R181, R182). -/
inductive BlockFunction : Op → (List Word → Nat → Block → Block → BlockResult) → Prop where
  | cbce : BlockFunction .cbce cbceBlock
  | cbcd : BlockFunction .cbcd cbcdBlock
  | ctr : BlockFunction .ctr ctrBlock

/-! ### The invariant -/

/-- R38: the round-key store holds the padded schedule of some key for the size KSSIZE names; before the first expansion it is 0
(R45). -/
def storeHolds (s : State) : Prop :=
  match s.ksSize with
  | none => s.rk = Vector.replicate 60 0
  | some k => ∃ key : Vector Word 8, s.rk = roundKeyStore key k

/-- Where a run can stand (R21, R28, R171, R175): the phases its operation has, the schedule built once they need it, and
BLKCNT exact. -/
def phaseHolds (r : Run) (s : State) : Prop :=
  match r.phase with
  | .expand => buildsSchedule r.op = true ∧ s.blkCnt = 0
  | .block i =>
    s.ksSize = some r.kb ∧ s.blkCnt.toNat = i ∧
      ((isMode r.op = true ∧ i < r.nblk) ∨ ((r.op = .encb ∨ r.op = .decb) ∧ i = 0))
  | .finish => s.ksSize = some r.kb ∧ s.blkCnt.toNat = if isMode r.op then r.nblk else 0

/-- What holds while the sequencer runs `r`: BUSY = 1 implies DONE = 0 and ERR = 0 (R25), `CMD` keeps the running command's word
(R24, R43), the latched operands equal the registers (R36), and a mode command's message passed its checks (R202). -/
structure RunHolds (r : Run) (s : State) : Prop where
  notDone : s.done = false
  noError : s.errCode = .ok
  command : decode s.cmd = .ok r.instr
  srcLatched : r.src = s.src
  dstLatched : r.dst = s.dst
  nblkLatched : r.nblk = s.len.toNat / 16
  message : isMode r.op = true → checkMessage r.kb s = none
  phase : phaseHolds r s
  lastInCbcd : r.lastIn ≠ none → r.op = .cbcd

/-- The invariant of the machine. -/
structure State.Inv (s : State) : Prop where
  /-- Memory is in canonical form. -/
  memory : s.mem.wf
  /-- The register window is 512-byte aligned (D32). -/
  base : s.platform.coreBase % 512 = 0
  /-- R38. -/
  store : storeHolds s
  /-- The largest BLKCNT is `(2^32 - 16) / 16 = 0x0FFFFFFF` (R28). -/
  blocks : s.blkCnt.toNat ≤ 0x0FFFFFFF
  /-- DONE is 1 once a command has completed (R25): while Idle with DONE = 0, no code stands. -/
  fresh : s.seq = .idle → s.done = false → s.errCode = .ok
  /-- The run, if there is one. -/
  run : ∀ r, s.seq = .run r → RunHolds r s

/-! ### The submission checks as R202 writes them -/

/-- The six checks of R202 in their order, on the numbers of the word's fields and of the registers; none is "accept". -/
def submissionError (c : Word) (s : State) : Option ErrorCode :=
  let op := c.toNat % 16
  let rsvd := c.toNat / 16 % 4096
  let kb := c.toNat / 65536
  let src := s.src.toNat
  let dst := s.dst.toNat
  let len := s.len.toNat
  if rsvd ≠ 0 ∨ op ∉ [1, 2, 3, 4, 5, 6] then some .invalidCommand
  else if kb ∉ [128, 192, 256] then some .invalidKeySize
  else if op ∈ [2, 3] ∧ s.ksSizeBits.toNat ≠ kb then some .scheduleMismatch
  else if op ∈ [4, 5, 6] ∧ len % 16 ≠ 0 then some .invalidInputLength
  else if op ∈ [4, 5, 6] ∧ 0 < len ∧ (src + len > 2 ^ 32 ∨ dst + len > 2 ^ 32) then some .addressRange
  else if op ∈ [4, 5, 6] ∧ 0 < len ∧ src ≠ dst ∧ max src dst < min src dst + len then some .overlapError
  else none

/-! ### Messages -/

/-- The `n` blocks of a message at `a` (R60). -/
def messageBlocks (m : Memory) (a n : Nat) : List Block :=
  (List.range n).map fun i => m.readBlock (a + 16 * i)

/-- The output blocks a mode gives for the blocks of a message, the IV threaded through (R177, R178). -/
def modeOutput (f : Block → Block → BlockResult) (iv : Block) : List Block → List Block
  | [] => []
  | x :: xs => (f x iv).out :: modeOutput f (f x iv).iv xs

/-- The IV after the blocks of a message (R178). -/
def modeFinalIv (f : Block → Block → BlockResult) (iv : Block) : List Block → Block
  | [] => iv
  | x :: xs => modeFinalIv f (f x iv).iv xs

/-- Every request of a message of `n` blocks is admitted (R65, R177). -/
def requestsAdmitted (p : Platform) (src dst : Word) (n : Nat) : Prop :=
  ∀ i, i < n → memOk p .read (blockAddress src i) = true ∧ memOk p .write (blockAddress dst i) = true

/-- The host's write of a register by its offset in the window (R22). -/
def hostWrite (p : Platform) (off : Nat) (v : Word) : Move := .regWrite (p.coreBase + off) 4 v

/-- The moves by which a message at `SRC` is processed in two commands of the word `c` (R185): LEN for the first `n1` blocks, the
command, its `n1 + 2` sequencer steps (R174), then `SRC` and `DST` advanced by `16*n1`, LEN for the last `n2` blocks, and the command
again, whose steps come when no move is left. IV is not written. -/
def splitMoves (s : State) (c : Word) (n1 n2 : Nat) : List Move :=
  [hostWrite s.platform 0x078 (BitVec.ofNat 32 (16 * n1)), cmdWrite s.platform c] ++
    List.replicate (n1 + 2) .sequencer ++
    [hostWrite s.platform 0x070 (s.src + BitVec.ofNat 32 (16 * n1)),
      hostWrite s.platform 0x074 (s.dst + BitVec.ofNat 32 (16 * n1)),
      hostWrite s.platform 0x078 (BitVec.ofNat 32 (16 * n2)), cmdWrite s.platform c]

/-- `k` steps of the machine (Host.Core.run). -/
def runSteps (k : Nat) (s : State) : Answer := Host.Core.run core k s

end Sys2Proof.Machine
end

