-- ==== Sys2Proof/Certificates/Slice0/Obligations.lean ====
section
/-! DEFINITION. The statements for the provers. Each docstring names the rule of spec/ it formalises, or says what it rests on. -/

open Sys2Proof Sys2Proof.Machine

/-! ### Encoding (30_encoding.md) -/

/-- R81, R88: the word of a command decodes to the command, KEYBITS at every value the 16-bit field admits, and to a legal verdict
when KEYBITS is legal. -/
def Obligations.DecodeUndoesEncode : Prop :=
  ∀ i : Instr, decodeInstr (encode i) = .ok i ∧ (i.wellFormed = true → decode (encode i) = .ok i) ∧
    (i.wellFormed = false → decode (encode i) = .error .invalidKeySize)

/-- R80, R81: a word has one meaning: a word that decodes to a command is that command's word, so no bit of it is dropped. -/
def Obligations.EncodeUndoesDecode : Prop :=
  ∀ (c : Word) (i : Instr), decodeInstr c = .ok i → encode i = c

/-- R87, on the numbers of the three fields: the total decoder's verdict on every word. -/
def Obligations.DecodeGivesTheVerdictOfEveryWord : Prop :=
  ∀ c : Word,
    ((c.toNat / 16 % 4096 ≠ 0 ∨ c.toNat % 16 = 0 ∨ 7 ≤ c.toNat % 16) → decode c = .error .invalidCommand) ∧
    (c.toNat / 16 % 4096 = 0 → 1 ≤ c.toNat % 16 → c.toNat % 16 ≤ 6 →
      (c.toNat / 65536 ∉ [128, 192, 256] → decode c = .error .invalidKeySize) ∧
      (c.toNat / 65536 ∈ [128, 192, 256] →
        (c.toNat % 16 = 1 → decode c = .ok (.expand (BitVec.ofNat 16 (c.toNat / 65536)))) ∧
        (c.toNat % 16 = 2 → decode c = .ok (.encb (BitVec.ofNat 16 (c.toNat / 65536)))) ∧
        (c.toNat % 16 = 3 → decode c = .ok (.decb (BitVec.ofNat 16 (c.toNat / 65536)))) ∧
        (c.toNat % 16 = 4 → decode c = .ok (.cbce (BitVec.ofNat 16 (c.toNat / 65536)))) ∧
        (c.toNat % 16 = 5 → decode c = .ok (.cbcd (BitVec.ofNat 16 (c.toNat / 65536)))) ∧
        (c.toNat % 16 = 6 → decode c = .ok (.ctr (BitVec.ofNat 16 (c.toNat / 65536))))))

/-- R88: the legal words are exactly the 18 of its table. -/
def Obligations.LegalWordsAreTheEighteen : Prop :=
  ∀ c : Word, (∃ i, decode c = .ok i) ↔
    c ∈ ([0x00800001, 0x00C00001, 0x01000001, 0x00800002, 0x00C00002, 0x01000002,
      0x00800003, 0x00C00003, 0x01000003, 0x00800004, 0x00C00004, 0x01000004,
      0x00800005, 0x00C00005, 0x01000005, 0x00800006, 0x00C00006, 0x01000006] : List Word)

/-- R88: one word of each mnemonic, as its table writes it, decodes to the command it stands for. -/
def Obligations.WordsOfTheTableDecode : Prop :=
  decode 0x00800001 = .ok (.expand 128) ∧ decode 0x00C00002 = .ok (.encb 192) ∧ decode 0x01000003 = .ok (.decb 256) ∧
  decode 0x00800004 = .ok (.cbce 128) ∧ decode 0x00C00005 = .ok (.cbcd 192) ∧ decode 0x01000006 = .ok (.ctr 256) ∧
  decode 0x00640001 = .error .invalidKeySize ∧ decode 0x00800014 = .error .invalidCommand ∧
  decode 0x00640000 = .error .invalidCommand

/-! ### Steps and submission (43_modes.md part 1, 60_exceptions.md) -/

/-- R170, R21: the word the host writes to `CMD` while the sequencer is Idle runs as the command it decodes to, with the word stored
in `CMD` and the move taken. -/
def Obligations.StepSubmitsTheCommandWritten : Prop :=
  ∀ (s : State) (c : Word) (i : Instr) (rest : List Move),
    s.moves = cmdWrite s.platform c :: rest → s.seq = .idle → decodeInstr c = .ok i →
    step s = exec i { s with cmd := c, moves := rest }

/-- R175: on the sequencer's turn, the step is that of the running command, and Idle has none. The turn comes when the
environment gives it or has no move left (log entry 1). -/
def Obligations.StepRunsTheRunningCommand : Prop :=
  (∀ (s : State) (r : Run), s.seq = .run r →
    (s.moves = [] → step s = exec r.instr s) ∧
    (∀ rest, s.moves = .sequencer :: rest → step s = exec r.instr { s with moves := rest })) ∧
  (∀ s : State, s.seq = .idle → s.moves = [] → step s = .next s)

/-- R170, R171, R202, R203: the checks of R202 in their order decide a submission; a rejection changes nothing but `CMD`, ERRCODE
and DONE, an acceptance is that of R171, and a `CMD` write while BUSY submits nothing and sets WIGN (R43). That the hidden
working block and `lastIn` are absent at acceptance is the model's choice (log entry 12). -/
def Obligations.SubmissionFollowsTheChecksInOrder : Prop :=
  ∀ (s : State) (c : Word) (rest : List Move), s.moves = cmdWrite s.platform c :: rest →
    (s.seq = .idle →
      (∀ e, submissionError c s = some e →
        step s = .next { s with moves := rest, cmd := c, errCode := e, done := true }) ∧
      (submissionError c s = none →
        ∃ (op : Op) (k : KeySize), c = encode (op.instr k.bits) ∧
          step s = .next { s with
            moves := rest
            cmd := c
            done := false
            errCode := .ok
            blkCnt := 0
            seq := .run
              { op := op
                kb := k
                phase := if op = .encb ∨ op = .decb then .block 0 else .expand
                src := s.src
                dst := s.dst
                nblk := s.len.toNat / 16
                work := none
                lastIn := none } })) ∧
    (∀ r, s.seq = .run r → step s = .next { s with moves := rest, wign := true })

/-- R171, R202, R203 at the level of `exec`: every command submitted while Idle answers a next state, rejected with the first failing
check's code and nothing else changed, or accepted. That the hidden working block and `lastIn` are absent at acceptance is the
model's choice (log entry 12), and so is that the submission of a command while another runs sets WIGN, as the ignored
`CMD` write does (R43; log entry 9). -/
def Obligations.ExecDecidesASubmission : Prop :=
  ∀ (i : Instr) (s : State),
    (s.seq = .idle →
      (∀ e, submissionError (encode i) s = some e → exec i s = .next { s with errCode := e, done := true }) ∧
      (submissionError (encode i) s = none →
        ∃ k : KeySize, i.keyBits = k.bits ∧
          exec i s = .next { s with
            done := false
            errCode := .ok
            blkCnt := 0
            seq := .run
              { op := i.op
                kb := k
                phase := if i.op = .encb ∨ i.op = .decb then .block 0 else .expand
                src := s.src
                dst := s.dst
                nblk := s.len.toNat / 16
                work := none
                lastIn := none } })) ∧
    (∀ r, s.seq = .run r → r.instr ≠ i → exec i s = .next { s with wign := true })

/-- R126, R175: the key-expansion step of EXPAND, CBCE, CBCD and CTR. -/
def Obligations.ExpandStepBuildsTheRoundKeyStore : Prop :=
  ∀ (s : State) (r : Run), s.seq = .run r → r.phase = .expand →
    (r.op = .expand ∨ r.op = .cbce ∨ r.op = .cbcd ∨ r.op = .ctr) →
    ∃ v : Vector Word 60,
      (∀ j (h : j < 60), v[j] =
        if j < 4 * (r.kb.nr + 1) then (keyExpansion (s.key.toList.take r.kb.nk) r.kb).getD j 0 else 0) ∧
      exec r.instr s = .next { s with
        rk := v
        ksSize := some r.kb
        seq := .run { r with phase := if r.op = .expand ∨ r.nblk = 0 then .finish else .block 0 } }

/-- R160, R175: the block step of ENCB. What stands in the hidden working state afterwards is the model's choice (log entry 12). -/
def Obligations.EncbEncryptsDinIntoDout : Prop :=
  ∀ (s : State) (r : Run) (k : KeySize), s.seq = .run r → r.op = .encb → r.kb = k → r.phase = .block 0 →
    exec (.encb k.bits) s = .next { s with
      dout := wordsOfBlock (cipher (s.rk.toList.take (4 * (k.nr + 1))) k.nr (blockOfWords s.din))
      seq := .run { r with
        phase := .finish
        work := some (cipher (s.rk.toList.take (4 * (k.nr + 1))) k.nr (blockOfWords s.din)) } }

/-- R161, R175: the block step of DECB. What stands in the hidden working state afterwards is the model's choice (log entry 12). -/
def Obligations.DecbDecryptsDinIntoDout : Prop :=
  ∀ (s : State) (r : Run) (k : KeySize), s.seq = .run r → r.op = .decb → r.kb = k → r.phase = .block 0 →
    exec (.decb k.bits) s = .next { s with
      dout := wordsOfBlock (invCipher (s.rk.toList.take (4 * (k.nr + 1))) k.nr (blockOfWords s.din))
      seq := .run { r with
        phase := .finish
        work := some (invCipher (s.rk.toList.take (4 * (k.nr + 1))) k.nr (blockOfWords s.din)) } }

/-- R177, R180: the block step of CBCE when its addresses exist and both requests are admitted. The hidden state left is the
model's choice (log entry 12). -/
def Obligations.CbceBlockStepEncryptsAndChains : Prop :=
  ∀ (s : State) (r : Run) (k : KeySize) (i : Nat), s.seq = .run r → r.op = .cbce → r.kb = k → r.phase = .block i →
    blockAddress r.src i + 16 ≤ 2 ^ 32 → blockAddress r.dst i + 16 ≤ 2 ^ 32 →
    memOk s.platform .read (blockAddress r.src i) = true → memOk s.platform .write (blockAddress r.dst i) = true →
    ∀ c : Block,
      c = cipher (s.rk.toList.take (4 * (k.nr + 1))) k.nr
        (xorBlock (s.mem.readBlock (blockAddress r.src i)) (blockOfWords s.iv)) →
      exec (.cbce k.bits) s = .next { s with
        mem := s.mem.writeBlock (blockAddress r.dst i) c
        iv := wordsOfBlock c
        blkCnt := BitVec.ofNat 32 (i + 1)
        seq := .run { r with
          phase := if i + 1 < r.nblk then .block (i + 1) else .finish
          work := some c
          lastIn := none } }

/-- R177, R181: the block step of CBCD when its addresses exist and both requests are admitted. -/
def Obligations.CbcdBlockStepDecryptsAndChains : Prop :=
  ∀ (s : State) (r : Run) (k : KeySize) (i : Nat), s.seq = .run r → r.op = .cbcd → r.kb = k → r.phase = .block i →
    blockAddress r.src i + 16 ≤ 2 ^ 32 → blockAddress r.dst i + 16 ≤ 2 ^ 32 →
    memOk s.platform .read (blockAddress r.src i) = true → memOk s.platform .write (blockAddress r.dst i) = true →
    ∀ x d : Block,
      x = s.mem.readBlock (blockAddress r.src i) →
      d = invCipher (s.rk.toList.take (4 * (k.nr + 1))) k.nr x →
      exec (.cbcd k.bits) s = .next { s with
        mem := s.mem.writeBlock (blockAddress r.dst i) (xorBlock d (blockOfWords s.iv))
        iv := wordsOfBlock x
        blkCnt := BitVec.ofNat 32 (i + 1)
        seq := .run { r with
          phase := if i + 1 < r.nblk then .block (i + 1) else .finish
          work := some d
          lastIn := some x } }

/-- R177, R182: the block step of CTR when its addresses exist and both requests are admitted; the next counter is the 128-bit
big-endian increment. -/
def Obligations.CtrBlockStepXorsTheKeystream : Prop :=
  ∀ (s : State) (r : Run) (k : KeySize) (i : Nat), s.seq = .run r → r.op = .ctr → r.kb = k → r.phase = .block i →
    blockAddress r.src i + 16 ≤ 2 ^ 32 → blockAddress r.dst i + 16 ≤ 2 ^ 32 →
    memOk s.platform .read (blockAddress r.src i) = true → memOk s.platform .write (blockAddress r.dst i) = true →
    ∀ ks n : Block,
      ks = cipher (s.rk.toList.take (4 * (k.nr + 1))) k.nr (blockOfWords s.iv) →
      be128 n = (be128 (blockOfWords s.iv) + 1) % 2 ^ 128 →
      exec (.ctr k.bits) s = .next { s with
        mem := s.mem.writeBlock (blockAddress r.dst i) (xorBlock (s.mem.readBlock (blockAddress r.src i)) ks)
        iv := wordsOfBlock n
        blkCnt := BitVec.ofNat 32 (i + 1)
        seq := .run { r with
          phase := if i + 1 < r.nblk then .block (i + 1) else .finish
          work := some ks
          lastIn := none } }

/-- R65, R177: a block step whose read or write the memory refuses ends the command with BusError; memory, IV and BLKCNT are as
before, so no byte of the block is written. -/
def Obligations.RefusedRequestEndsInBusError : Prop :=
  ∀ (s : State) (r : Run) (i : Nat), s.seq = .run r → (r.op = .cbce ∨ r.op = .cbcd ∨ r.op = .ctr) →
    r.phase = .block i → blockAddress r.src i + 16 ≤ 2 ^ 32 → blockAddress r.dst i + 16 ≤ 2 ^ 32 →
    (memOk s.platform .read (blockAddress r.src i) = false ∨ memOk s.platform .write (blockAddress r.dst i) = false) →
    exec r.instr s = .next { s with errCode := .busError, done := true, seq := .idle }

/-- R176: normal completion, the Finish step of all six commands. -/
def Obligations.FinishStepCompletesTheCommand : Prop :=
  ∀ (s : State) (r : Run), s.seq = .run r → r.phase = .finish →
    exec r.instr s = .next { s with done := true, seq := .idle }

/-- R84, R39: what a command's transitions may write, by operation; everything else is as before. WIGN changes only where the
transition is a submission ignored because another command runs (log entry 9). -/
def Obligations.CommandsWriteOnlyTheirOwnRegisters : Prop :=
  ∀ (i : Instr) (s t : State), exec i s = .next t →
    (t.cmd = s.cmd ∧ t.key = s.key ∧ t.din = s.din ∧ t.src = s.src ∧ t.dst = s.dst ∧ t.len = s.len ∧
      t.platform = s.platform ∧ t.moves = s.moves ∧ t.lastRead = s.lastRead ∧ t.lastMemRead = s.lastMemRead ∧
      t.draws = s.draws) ∧
    (i.op ≠ .encb → i.op ≠ .decb → t.dout = s.dout) ∧
    (i.op ≠ .cbce → i.op ≠ .cbcd → i.op ≠ .ctr → t.iv = s.iv ∧ t.mem = s.mem) ∧
    (i.op = .encb ∨ i.op = .decb → t.rk = s.rk ∧ t.ksSize = s.ksSize) ∧
    (s.seq ≠ .idle → i.op ≠ .cbce → i.op ≠ .cbcd → i.op ≠ .ctr → t.blkCnt = s.blkCnt) ∧
    (t.wign ≠ s.wign → ∃ r, s.seq = .run r ∧ r.instr ≠ i)

/-- R64: the memory frame of `exec`. A mode block step leaves every byte outside the 16 bytes at `dst + 16*i` as it was; every other
transition of every command leaves all of memory as it was. -/
def Obligations.CommandsStoreOnlyTheBlockOfTheStep : Prop :=
  ∀ (i : Instr) (s t : State), s.mem.wf → exec i s = .next t →
    (∀ r j, s.seq = .run r → r.instr = i → r.phase = .block j → (i.op = .cbce ∨ i.op = .cbcd ∨ i.op = .ctr) →
      ∀ a, (a < blockAddress r.dst j ∨ blockAddress r.dst j + 16 ≤ a) → t.mem.readByte a = s.mem.readByte a) ∧
    ((∀ r j, s.seq = .run r → r.instr = i → r.phase = .block j → ¬ (i.op = .cbce ∨ i.op = .cbcd ∨ i.op = .ctr)) →
      ∀ a, t.mem.readByte a = s.mem.readByte a)

/-! ### Whole commands (R72: as if the command took place at the `CMD` write) -/

/-- R127, R174: EXPAND from the `CMD` write to completion. -/
def Obligations.ExpandCommandRunsToCompletion : Prop :=
  ∀ (s : State) (k : KeySize), s.seq = .idle → s.moves = [cmdWrite s.platform (encode (.expand k.bits))] →
    runSteps 3 s = .next { s with
      moves := []
      cmd := encode (.expand k.bits)
      rk := roundKeyStore s.key k
      ksSize := some k
      blkCnt := 0
      errCode := .ok
      done := true }

/-- R160, R161, R174, R206: ENCB and DECB from the `CMD` write to completion when KSSIZE names the command's key size. -/
def Obligations.SingleBlockCommandRunsToCompletion : Prop :=
  ∀ (s : State) (k : KeySize), s.seq = .idle → s.ksSize = some k →
    (s.moves = [cmdWrite s.platform (encode (.encb k.bits))] →
      runSteps 3 s = .next { s with
        moves := []
        cmd := encode (.encb k.bits)
        dout := wordsOfBlock (cipher (s.rk.toList.take (4 * (k.nr + 1))) k.nr (blockOfWords s.din))
        blkCnt := 0
        errCode := .ok
        done := true }) ∧
    (s.moves = [cmdWrite s.platform (encode (.decb k.bits))] →
      runSteps 3 s = .next { s with
        moves := []
        cmd := encode (.decb k.bits)
        dout := wordsOfBlock (invCipher (s.rk.toList.take (4 * (k.nr + 1))) k.nr (blockOfWords s.din))
        blkCnt := 0
        errCode := .ok
        done := true })

/-- R72, R77, R178 to R182: a mode command whose requests are all admitted transforms its message, in place or into a disjoint
buffer: the output blocks and the final IV are the mode's on the blocks the message had, no byte outside the output changes, and
every other register is as a completed command leaves it. -/
def Obligations.ModeCommandTransformsTheMessage : Prop :=
  ∀ (op : Op) (f : List Word → Nat → Block → Block → BlockResult) (k : KeySize) (s : State) (n : Nat),
    BlockFunction op f → s.seq = .idle → s.mem.wf → n = s.len.toNat / 16 →
    submissionError (encode (op.instr k.bits)) s = none → requestsAdmitted s.platform s.src s.dst n →
    s.moves = [cmdWrite s.platform (encode (op.instr k.bits))] →
    ∃ m : Memory,
      messageBlocks m s.dst.toNat n =
        modeOutput (f (keyExpansion (keyWords s.key k) k) k.nr) (blockOfWords s.iv) (messageBlocks s.mem s.src.toNat n) ∧
      (∀ a, (a < s.dst.toNat ∨ s.dst.toNat + 16 * n ≤ a) → m.readByte a = s.mem.readByte a) ∧
      runSteps (n + 3) s = .next { s with
        moves := []
        cmd := encode (op.instr k.bits)
        mem := m
        iv := wordsOfBlock (modeFinalIv (f (keyExpansion (keyWords s.key k) k) k.nr) (blockOfWords s.iv)
          (messageBlocks s.mem s.src.toNat n))
        rk := roundKeyStore s.key k
        ksSize := some k
        blkCnt := BitVec.ofNat 32 n
        errCode := .ok
        done := true }

/-- R207: a mode command whose request for block `j` is refused: blocks 0 to j-1 are written and no other byte changes, BLKCNT is
`j`, IV is the chaining value for block `j`, and the schedule stays built. -/
def Obligations.BusErrorKeepsTheBlocksBefore : Prop :=
  ∀ (op : Op) (f : List Word → Nat → Block → Block → BlockResult) (k : KeySize) (s : State) (j : Nat),
    BlockFunction op f → s.seq = .idle → s.mem.wf → j < s.len.toNat / 16 →
    submissionError (encode (op.instr k.bits)) s = none → requestsAdmitted s.platform s.src s.dst j →
    (memOk s.platform .read (blockAddress s.src j) = false ∨ memOk s.platform .write (blockAddress s.dst j) = false) →
    s.moves = [cmdWrite s.platform (encode (op.instr k.bits))] →
    ∃ m : Memory,
      messageBlocks m s.dst.toNat j =
        modeOutput (f (keyExpansion (keyWords s.key k) k) k.nr) (blockOfWords s.iv) (messageBlocks s.mem s.src.toNat j) ∧
      (∀ a, (a < s.dst.toNat ∨ s.dst.toNat + 16 * j ≤ a) → m.readByte a = s.mem.readByte a) ∧
      runSteps (j + 3) s = .next { s with
        moves := []
        cmd := encode (op.instr k.bits)
        mem := m
        iv := wordsOfBlock (modeFinalIv (f (keyExpansion (keyWords s.key k) k) k.nr) (blockOfWords s.iv)
          (messageBlocks s.mem s.src.toNat j))
        rk := roundKeyStore s.key k
        ksSize := some k
        blkCnt := BitVec.ofNat 32 j
        errCode := .busError
        done := true }

/-- R184: CBCD applied to the output of CBCE returns the message and leaves the same IV, and CTR applied to its own output returns
the message, for every schedule, round count, IV and message. -/
def Obligations.ModesUndoThemselves : Prop :=
  ∀ (w : List Word) (nr : Nat) (iv : Block) (xs : List Block),
    modeOutput (cbcdBlock w nr) iv (modeOutput (cbceBlock w nr) iv xs) = xs ∧
    modeFinalIv (cbcdBlock w nr) iv (modeOutput (cbceBlock w nr) iv xs) = modeFinalIv (cbceBlock w nr) iv xs ∧
    modeOutput (ctrBlock w nr) iv (modeOutput (ctrBlock w nr) iv xs) = xs

/-- R183: block `i` uses the counter `(N0 + i) mod 2^128`, and after the message the counter is `(N0 + nblk) mod 2^128`. -/
def Obligations.CtrCounterIsTheWholeInteger : Prop :=
  ∀ (w : List Word) (nr : Nat) (iv : Block) (xs : List Block),
    be128 (modeFinalIv (ctrBlock w nr) iv xs) = (be128 iv + xs.length) % 2 ^ 128 ∧
    ∀ i (h : i < xs.length), (modeOutput (ctrBlock w nr) iv xs)[i]? =
      some (xorBlock xs[i] (cipher w nr (toBe128 ((be128 iv + i) % 2 ^ 128))))

/-- R185, on runs of the machine: a message of `n1 + n2` blocks processed by one command, and by two, the host writing `SRC`, `DST`
and `LEN` between them and leaving IV as the first command left it. Both runs complete, with the same memory and the same IV;
the two final states differ only in the operand registers the host wrote and in BLKCNT, which counts the second command's blocks. -/
def Obligations.SplitMessageContinues : Prop :=
  ∀ (op : Op) (k : KeySize) (s : State) (n1 n2 : Nat),
    (op = .cbce ∨ op = .cbcd ∨ op = .ctr) → s.seq = .idle → s.mem.wf → s.len.toNat = 16 * (n1 + n2) →
    submissionError (encode (op.instr k.bits)) s = none → requestsAdmitted s.platform s.src s.dst (n1 + n2) →
    ∃ t : State,
      runSteps (n1 + n2 + 3) { s with moves := [cmdWrite s.platform (encode (op.instr k.bits))] } = .next t ∧
      t.seq = .idle ∧ t.done = true ∧ t.errCode = .ok ∧ t.blkCnt = BitVec.ofNat 32 (n1 + n2) ∧
      runSteps (n1 + n2 + 10) { s with moves := splitMoves s (encode (op.instr k.bits)) n1 n2 } = .next { t with
        src := s.src + BitVec.ofNat 32 (16 * n1)
        dst := s.dst + BitVec.ofNat 32 (16 * n1)
        len := BitVec.ofNat 32 (16 * n2)
        blkCnt := BitVec.ofNat 32 n2 }

/-! ### Invariants and whole-machine rules -/

/-- The state after reset meets the invariant. What platform, memory and environment hold there is the model's choice (log entries
3, 4, 5). -/
def Obligations.InvariantHoldsAtReset : Prop := State.reset.Inv

/-- Every step keeps the invariant, whatever the environment does: memory stays canonical, the round-key store is the schedule of
some key for KSSIZE (R38), BUSY implies DONE = 0 and ERR = 0 (R25), `CMD` and the latched operands are the running command's
(R24, R36, R43), and the sequencer stays in the phases of R175. -/
def Obligations.StepKeepsTheInvariant : Prop :=
  ∀ s t : State, s.Inv → step s = .next t → t.Inv

/-- R175, R201: under the invariant the sequencer's step of a running command always answers a next state: no fault, no refusal. -/
def Obligations.RunningCommandNeverStops : Prop :=
  ∀ (s : State) (r : Run), s.Inv → s.seq = .run r → ∃ t, exec r.instr s = .next t

/-- R175, R246: left to itself, a running command completes in at most `nblk + 2` steps. -/
def Obligations.RunEndsWithinItsBound : Prop :=
  ∀ (s : State) (r : Run), s.Inv → s.seq = .run r → s.moves = [] →
    ∃ (m : Nat) (t : State), m ≤ r.nblk + 2 ∧ runSteps m s = .next t ∧ t.seq = .idle ∧ t.done = true

/-- R129: the round-key store and KSSIZE change only at a key-expansion step or at reset. -/
def Obligations.RoundKeysChangeOnlyAtExpansionOrReset : Prop :=
  ∀ s t : State, step s = .next t → (t.rk ≠ s.rk ∨ t.ksSize ≠ s.ksSize) →
    (∃ r, s.seq = .run r ∧ r.phase = .expand ∧ (s.moves = [] ∨ ∃ rest, s.moves = .sequencer :: rest)) ∨
    ∃ rest, s.moves = .reset :: rest

/-- R44, R64: a byte of memory changes only by a host memory write that names it or by the block step of a mode command, in the 16
bytes at `dst + 16*i`. -/
def Obligations.MemoryChangesOnlyByHostOrBlockStep : Prop :=
  ∀ (s t : State) (a : Nat), s.mem.wf → step s = .next t → t.mem.readByte a ≠ s.mem.readByte a →
    (∃ b bytes rest, s.moves = .memWrite b bytes :: rest ∧ b ≤ a ∧ a < b + bytes.length) ∨
    (∃ r i, s.seq = .run r ∧ (r.op = .cbce ∨ r.op = .cbcd ∨ r.op = .ctr) ∧ r.phase = .block i ∧
      blockAddress r.dst i ≤ a ∧ a < blockAddress r.dst i + 16 ∧
      (s.moves = [] ∨ ∃ rest, s.moves = .sequencer :: rest))

/-- R29, R31, R33, R233: `KEY*`, `DIN*`, `SRC`, `DST` and `LEN` change only by a register write of the host while BUSY = 0, or at
reset. -/
def Obligations.OperandRegistersChangeOnlyByTheHost : Prop :=
  ∀ s t : State, step s = .next t →
    (t.key ≠ s.key ∨ t.din ≠ s.din ∨ t.src ≠ s.src ∨ t.dst ≠ s.dst ∨ t.len ≠ s.len) →
    (s.seq = .idle ∧ ∃ addr size v rest, s.moves = .regWrite addr size v :: rest) ∨
    ∃ rest, s.moves = .reset :: rest

/-- Equal memories are equal data: two memories in canonical form that read the same at every address are the same list. The form
and what an unlisted address reads as are the model's choice (log entry 5). -/
def Obligations.CanonicalMemoriesAreExtensional : Prop :=
  ∀ m m' : Memory, m.wf → m'.wf → (∀ a, m.readByte a = m'.readByte a) → m = m'

/-! ### The register window (10_state.md, 20_memory.md section 2, 70_reset_and_hazards.md) -/

/-- R45: every register after reset, the sequencer Idle, no schedule, nothing hidden. -/
def Obligations.ResetLeavesTheListedValues : Prop :=
  (∀ r : Reg, regValue State.reset r = if r = .id then 0x41455331 else 0) ∧
  State.reset.seq = .idle ∧ State.reset.ksSize = none ∧ State.reset.ksv = false ∧ State.reset.wign = false

/-- R230, R231: reset from any state, running or not: every register as R45 says, the run gone with no code recorded, message memory
untouched. That the platform and the moves still to come stay as they are is the model's choice (log entries 3, 4 and 15), and
so is that reset is a move of a list (log entry 1). -/
def Obligations.ResetFromEveryState : Prop :=
  ∀ (s : State) (rest : List Move), s.moves = .reset :: rest →
    ∃ t, step s = .next t ∧ (∀ r : Reg, regValue t r = if r = .id then 0x41455331 else 0) ∧
      t.seq = .idle ∧ t.ksSize = none ∧ t.errCode = .ok ∧ t.mem = s.mem ∧ t.platform = s.platform ∧ t.moves = rest

/-- R22, R35: the register map: every register at its offset and at no other, the reserved offsets, and nothing outside the
window or off the 4-byte grid (R63). -/
def Obligations.RegisterMapIsTheTable : Prop :=
  (∀ (r : Reg) (off : Nat), regOffset r = some off ↔ (r ≠ .reserved ∧ regAt off = some r)) ∧
  (∀ off : Nat, regAt off = some .reserved ↔
    (off % 4 = 0 ∧ (off = 0x018 ∨ off = 0x01C ∨ (0x07C ≤ off ∧ off ≤ 0x0FC) ∨ (0x1F0 ≤ off ∧ off ≤ 0x1FC)))) ∧
  (∀ off : Nat, regAt off = none ↔ (off % 4 ≠ 0 ∨ 0x200 ≤ off))

/-- R63: an access of another width, off the grid or outside the window is refused; every other access is admitted. -/
def Obligations.OnlyAlignedWordAccessesAreAdmitted : Prop :=
  ∀ (s : State) (addr size : Nat) (v : Word) (rest : List Move),
    ((size ≠ 4 ∨ addr < s.platform.coreBase ∨ s.platform.coreBase + 0x200 ≤ addr ∨
        (addr - s.platform.coreBase) % 4 ≠ 0) →
      (s.moves = .regRead addr size :: rest → step s = .refused .hostAccessOutsideInterface) ∧
      (s.moves = .regWrite addr size v :: rest → step s = .refused .hostAccessOutsideInterface)) ∧
    ((size = 4 ∧ s.platform.coreBase ≤ addr ∧ addr < s.platform.coreBase + 0x200 ∧
        (addr - s.platform.coreBase) % 4 = 0) →
      (s.moves = .regRead addr size :: rest → ∃ t, step s = .next t) ∧
      (s.moves = .regWrite addr size v :: rest → ∃ t, step s = .next t))

/-- R41, R42: a host read changes no state of the core; it returns the exact value, except that while BUSY a read of `DOUT*`, `IV*`,
`RK*` or `KSINFO` returns the next unspecified value, of which nothing is known. -/
def Obligations.RegisterReadsAreExactOrUnspecified : Prop :=
  ∀ (s : State) (r : Reg) (off : Nat) (rest : List Move), regAt off = some r →
    s.moves = .regRead (s.platform.coreBase + off) 4 :: rest →
    (((∃ i, r = .dout i) ∨ (∃ i, r = .iv i) ∨ (∃ j, r = .rk j) ∨ r = .ksinfo) → s.busy = true →
      step s = .next { s with moves := rest, lastRead := Config.freeWord s.draws, draws := s.draws + 1 }) ∧
    (¬ (((∃ i, r = .dout i) ∨ (∃ i, r = .iv i) ∨ (∃ j, r = .rk j) ∨ r = .ksinfo) ∧ s.busy = true) →
      step s = .next { s with moves := rest, lastRead := regValue s r })

/-- R43: while BUSY a write to `CMD`, `KEY*`, `IV*`, `DIN*`, `SRC`, `DST` or `LEN` changes nothing but WIGN; a write to a read-only
register or reserved offset changes nothing; a `STATUS` write is honoured. -/
def Obligations.WritesWhileBusyAreIgnored : Prop :=
  ∀ (s : State) (r : Reg) (off : Nat) (v : Word) (rest : List Move), regAt off = some r →
    s.moves = .regWrite (s.platform.coreBase + off) 4 v :: rest → s.busy = true →
    ((r = .cmd ∨ (∃ i, r = .key i) ∨ (∃ i, r = .iv i) ∨ (∃ i, r = .din i) ∨ r = .src ∨ r = .dst ∨ r = .len) →
      step s = .next { s with moves := rest, wign := true }) ∧
    ((r = .id ∨ r = .errcode ∨ r = .ksinfo ∨ r = .blkcnt ∨ (∃ i, r = .dout i) ∨ (∃ j, r = .rk j) ∨ r = .reserved) →
      step s = .next { s with moves := rest }) ∧
    (r = .status → step s = .next { s with moves := rest, wign := s.wign && !v.getLsbD 4 })

/-- R22, R35: while Idle a write to a data register stores all 32 bits, and that register alone reads differently; a write to a
read-only register or reserved offset changes nothing. -/
def Obligations.IdleWritesStoreTheWholeWord : Prop :=
  ∀ (s : State) (r : Reg) (off : Nat) (v : Word) (rest : List Move), regAt off = some r →
    s.moves = .regWrite (s.platform.coreBase + off) 4 v :: rest → s.busy = false →
    (((∃ i, r = .key i) ∨ (∃ i, r = .iv i) ∨ (∃ i, r = .din i) ∨ r = .src ∨ r = .dst ∨ r = .len) →
      ∃ t, step s = .next t ∧ regValue t r = v ∧ (∀ r', r' ≠ r → regValue t r' = regValue s r') ∧
        t.seq = s.seq ∧ t.mem = s.mem) ∧
    ((r = .id ∨ r = .errcode ∨ r = .ksinfo ∨ r = .blkcnt ∨ (∃ i, r = .dout i) ∨ (∃ j, r = .rk j) ∨ r = .reserved) →
      step s = .next { s with moves := rest })

/-- R25, R26, R27, R200: the bits of `STATUS`, `ERRCODE` and `KSINFO` as they read. -/
def Obligations.StatusRegistersShowTheirFields : Prop :=
  ∀ s : State,
    (statusWord s).getLsbD 0 = s.busy ∧ (s.busy = false ↔ s.seq = .idle) ∧
    (statusWord s).getLsbD 1 = s.done ∧
    (statusWord s).getLsbD 2 = decide (s.errCode ≠ .ok) ∧
    (statusWord s).getLsbD 3 = s.ksSize.isSome ∧
    (statusWord s).getLsbD 4 = s.wign ∧
    (∀ i, 5 ≤ i → (statusWord s).getLsbD i = false) ∧
    (errcodeWord s).toNat =
      (match s.errCode with
        | .ok => 0
        | .invalidCommand => 1
        | .invalidKeySize => 2
        | .scheduleMismatch => 3
        | .invalidInputLength => 4
        | .addressRange => 5
        | .overlapError => 6
        | .busError => 7) ∧
    (ksinfoWord s).toNat =
      (match s.ksSize with
        | none => 0
        | some .k128 => 128
        | some .k192 => 192
        | some .k256 => 256)

/-- R25: a write of `STATUS`, at any time: bit 4 = 1 clears WIGN and bit 4 = 0 leaves it; nothing else changes. -/
def Obligations.StatusWriteClearsOnlyWign : Prop :=
  ∀ (s : State) (v : Word) (rest : List Move), s.moves = .regWrite (s.platform.coreBase + 0x008) 4 v :: rest →
    (v.getLsbD 4 = true → step s = .next { s with moves := rest, wign := false }) ∧
    (v.getLsbD 4 = false → step s = .next { s with moves := rest })

/-- R25, R43: WIGN is sticky: it is set only by a write to `CMD`, `KEY*`, `IV*`, `DIN*`, `SRC`, `DST` or `LEN` while BUSY, and cleared
only by a `STATUS` write with bit 4 = 1 or by reset. -/
def Obligations.WignIsSticky : Prop :=
  ∀ s t : State, step s = .next t → t.wign ≠ s.wign →
    (t.wign = true ∧ s.busy = true ∧ ∃ r off v rest, regAt off = some r ∧
      (r = .cmd ∨ (∃ i, r = .key i) ∨ (∃ i, r = .iv i) ∨ (∃ i, r = .din i) ∨ r = .src ∨ r = .dst ∨ r = .len) ∧
      s.moves = .regWrite (s.platform.coreBase + off) 4 v :: rest) ∨
    (t.wign = false ∧ ((∃ rest, s.moves = .reset :: rest) ∨
      ∃ v rest, s.moves = .regWrite (s.platform.coreBase + 0x008) 4 v :: rest ∧ v.getLsbD 4 = true))

/-- R71 (e): while BUSY the host has no move that writes the message buffers; the bytes it reads there are unspecified, and every
other byte is the one in memory. Who may read what while BUSY is the model's choice (log entry 7). -/
def Obligations.HostMemoryMovesRespectTheBuffers : Prop :=
  ∀ (s : State) (a : Nat) (rest : List Move),
    (∀ bytes : List Byte, a + bytes.length ≤ 2 ^ 32 → s.moves = .memWrite a bytes :: rest →
      ((s.busy = true ∧ ∃ j, j < bytes.length ∧ inBuffers s (a + j) = true) →
        step s = .refused .hostWriteToBusyBuffer) ∧
      ((s.busy = false ∨ ∀ j, j < bytes.length → inBuffers s (a + j) = false) →
        step s = .next { s with moves := rest, mem := s.mem.writeBytes a bytes })) ∧
    (∀ n : Nat, a + n ≤ 2 ^ 32 → s.moves = .memRead a n :: rest →
      ∃ t, step s = .next t ∧ t.mem = s.mem ∧ t.lastMemRead.length = n ∧
        ∀ j, j < n → (s.busy = false ∨ inBuffers s (a + j) = false) →
          t.lastMemRead[j]? = some (s.mem.readByte (a + j)))

/-! ### Primitives (40_primitives.md) -/

/-- R102: `xtime` doubles, and subtracts `0x11B` when bit 7 was set; its corner cases. -/
def Obligations.XtimeDoublesModuloTheField : Prop :=
  (∀ a : Byte, (xtime a).toNat = if 128 ≤ a.toNat then (2 * a.toNat) ^^^ 0x11B else 2 * a.toNat) ∧
  xtime 0x00 = 0x00 ∧ xtime 0x80 = 0x1B ∧ xtime 0xFF = 0xE5 ∧ xtime 0x57 = 0xAE

/-- R101: `•` is commutative, associative, distributes over `^`, has identity `0x01`, and `a • 0 = 0`; multiplication by `0x02` is
`xtime`; its examples. -/
def Obligations.FieldMultiplicationLaws : Prop :=
  (∀ a b : Byte, gmul a b = gmul b a) ∧ (∀ a b c : Byte, gmul (gmul a b) c = gmul a (gmul b c)) ∧
  (∀ a b c : Byte, gmul a (b ^^^ c) = gmul a b ^^^ gmul a c) ∧ (∀ a : Byte, gmul a 0x01 = a) ∧
  (∀ a : Byte, gmul a 0x00 = 0x00) ∧ (∀ a : Byte, gmul 0x02 a = xtime a) ∧
  gmul 0x57 0x83 = 0xC1 ∧ gmul 0x57 0x13 = 0xFE

/-- R103: `ginv` is the multiplicative inverse, and 0 at 0. -/
def Obligations.FieldInverseInverts : Prop :=
  (∀ a : Byte, a ≠ 0 → gmul a (ginv a) = 0x01) ∧ ginv 0x00 = 0x00

/-- R104: the S-box table is the affine map of the inverse; its corner cases, no fixed point, no complement point. -/
def Obligations.SboxIsTheAffineInverse : Prop :=
  (∀ x : Byte, sbox x = ginv x ^^^ (ginv x).rotateLeft 1 ^^^ (ginv x).rotateLeft 2 ^^^ (ginv x).rotateLeft 3 ^^^
    (ginv x).rotateLeft 4 ^^^ 0x63) ∧
  sbox 0x00 = 0x63 ∧ sbox 0x01 = 0x7C ∧ sbox 0xFF = 0x16 ∧
  (∀ x : Byte, sbox x ≠ x) ∧ (∀ x : Byte, sbox x ≠ x ^^^ 0xFF)

/-- R106: `InvSbox` is the inverse permutation of `Sbox`; its corner cases. -/
def Obligations.InvSboxInvertsSbox : Prop :=
  (∀ x : Byte, invSbox (sbox x) = x) ∧ (∀ y : Byte, sbox (invSbox y) = y) ∧ invSbox 0x63 = 0x00 ∧ invSbox 0x00 = 0x52

/-- R109 to R113: the word transforms on the bytes of a word, RotWord as a rotation left by 8 bits and of order 4, and the two commute;
the round constants, each `xtime` of the one before and in the most significant byte of its word; the examples. -/
def Obligations.WordTransformsActOnBytes : Prop :=
  (∀ w : Word, byteOf (subWord w) 0 = sbox (byteOf w 0) ∧ byteOf (subWord w) 1 = sbox (byteOf w 1) ∧
    byteOf (subWord w) 2 = sbox (byteOf w 2) ∧ byteOf (subWord w) 3 = sbox (byteOf w 3)) ∧
  (∀ w : Word, rotWord w = w.rotateLeft 8) ∧ (∀ w : Word, rotWord (rotWord (rotWord (rotWord w))) = w) ∧
  (∀ w : Word, subWord (rotWord w) = rotWord (subWord w)) ∧
  subWord 0x00000000 = 0x63636363 ∧ subWord 0xCF4F3C09 = 0x8A84EB01 ∧ rotWord 0x09CF4F3C = 0xCF4F3C09 ∧
  rcon 1 = 0x01000000 ∧ rcon 9 = 0x1B000000 ∧ rcon 10 = 0x36000000 ∧
  ∀ i, 1 ≤ i → i ≤ 9 → byteOf (rcon (i + 1)) 0 = xtime (byteOf (rcon i) 0) ∧
    (rcon i).toNat = (byteOf (rcon i) 0).toNat * 2 ^ 24

/-! ### The key schedule (41_key_schedule.md) -/

/-- R7, R121: the parameters of each key size, and the words of the schedule of any `Nk` key words: their number, the key words, and
the recurrence. -/
def Obligations.KeyExpansionFollowsTheRecurrence : Prop :=
  ∀ (k : KeySize) (key : List Word), key.length = k.nk →
    (k = .k128 ∧ k.nk = 4 ∧ k.nr = 10 ∨ k = .k192 ∧ k.nk = 6 ∧ k.nr = 12 ∨ k = .k256 ∧ k.nk = 8 ∧ k.nr = 14) ∧
    (keyExpansion key k).length = 4 * (k.nr + 1) ∧
    (∀ i, i < k.nk → (keyExpansion key k).getD i 0 = key.getD i 0) ∧
    ∀ i, k.nk ≤ i → i < 4 * (k.nr + 1) →
      (keyExpansion key k).getD i 0 = (keyExpansion key k).getD (i - k.nk) 0 ^^^
        (if i % k.nk = 0 then subWord (rotWord ((keyExpansion key k).getD (i - 1) 0)) ^^^ rcon (i / k.nk)
          else if k.nk = 8 ∧ i % 8 = 4 then subWord ((keyExpansion key k).getD (i - 1) 0)
          else (keyExpansion key k).getD (i - 1) 0)

/-- R124 (90_conflicts.md C3): for 256-bit keys the first word of an odd-numbered round key 3 to 13 uses SubWord alone, and the first
word of an even-numbered one 2 to 14 uses SubWord of RotWord with Rcon. -/
def Obligations.RoundKeysOf256BitKeysAlternate : Prop :=
  ∀ (key w : List Word), key.length = 8 → w = keyExpansion key .k256 →
    (∀ s, 1 ≤ s → s ≤ 7 → w.getD (8 * s) 0 = subWord (rotWord (w.getD (8 * s - 1) 0)) ^^^ rcon s ^^^ w.getD (8 * s - 8) 0) ∧
    (∀ s, 1 ≤ s → s ≤ 6 → w.getD (8 * s + 4) 0 = subWord (w.getD (8 * s + 3) 0) ^^^ w.getD (8 * s - 4) 0) ∧
    (∀ s c, 1 ≤ s → 1 ≤ c → c ≤ 7 → c ≠ 4 → 8 * s + c < 60 →
      w.getD (8 * s + c) 0 = w.getD (8 * s + c - 1) 0 ^^^ w.getD (8 * s + c - 8) 0)

/-- R123 (90_conflicts.md C6): for 192-bit keys every word of the 6-word steps, those of round key 12 among them, comes from the one
recurrence. -/
def Obligations.RoundKeysOf192BitKeysAreUniform : Prop :=
  ∀ (key w : List Word), key.length = 6 → w = keyExpansion key .k192 →
    w.length = 52 ∧
    (∀ s, 1 ≤ s → s ≤ 8 → w.getD (6 * s) 0 = subWord (rotWord (w.getD (6 * s - 1) 0)) ^^^ rcon s ^^^ w.getD (6 * s - 6) 0) ∧
    (∀ s c, 1 ≤ s → 1 ≤ c → c ≤ 5 → 6 * s + c < 52 →
      w.getD (6 * s + c) 0 = w.getD (6 * s + c - 1) 0 ^^^ w.getD (6 * s + c - 6) 0)

/-- R120: the expansion reads only `KEY[0]` to `KEY[Nk-1]`: keys that agree there give the same round-key store. -/
def Obligations.UnusedKeyRegistersDoNotMatter : Prop :=
  ∀ (k : KeySize) (key key' : Vector Word 8), (∀ i (h : i < 8), i < k.nk → key[i] = key'[i]) →
    roundKeyStore key k = roundKeyStore key' k

/-! ### The block cipher (42_block_core.md) -/

/-- R141, R142, R143, R144 in terms of the rows and columns of the state (R140): AddRoundKey, SubBytes, ShiftRows and MixColumns. R125:
round key `r` holds byte `row` of schedule word `4r + col` at `row + 4·col`, at every place of the state. -/
def Obligations.RoundTransformsByRowAndColumn : Prop :=
  ∀ (t : Block) (w : List Word) (r row col : Nat) (hr : row < 4) (hc : col < 4),
    (roundKey w r)[row + 4 * col] = byteOf (w.getD (4 * r + col) 0) row ∧
    (addRoundKey w r t)[row + 4 * col] = t[row + 4 * col] ^^^ byteOf (w.getD (4 * r + col) 0) row ∧
    (subBytes t)[row + 4 * col] = sbox t[row + 4 * col] ∧
    (shiftRows t)[row + 4 * col] = t[row + 4 * ((col + row) % 4)] ∧
    (mixColumns t)[row + 4 * col] =
      gmul 0x02 t[row + 4 * col] ^^^ gmul 0x03 t[(row + 1) % 4 + 4 * col] ^^^ t[(row + 2) % 4 + 4 * col] ^^^
        t[(row + 3) % 4 + 4 * col]

/-- R145, R146, R147 in terms of rows and columns: the inverse transforms. -/
def Obligations.InverseTransformsByRowAndColumn : Prop :=
  ∀ (t : Block) (row col : Nat) (hr : row < 4) (hc : col < 4),
    (invSubBytes t)[row + 4 * col] = invSbox t[row + 4 * col] ∧
    (invShiftRows t)[row + 4 * col] = t[row + 4 * ((col + 4 - row) % 4)] ∧
    (invMixColumns t)[row + 4 * col] =
      gmul 0x0E t[row + 4 * col] ^^^ gmul 0x0B t[(row + 1) % 4 + 4 * col] ^^^ gmul 0x0D t[(row + 2) % 4 + 4 * col] ^^^
        gmul 0x09 t[(row + 3) % 4 + 4 * col]

/-- R141, R145, R146, R147: each inverse transform undoes its transform, AddRoundKey undoes itself, and MixColumns and its inverse
undo each other both ways. R148: SubBytes and ShiftRows commute, as do their inverses. R144: a column of four equal bytes
is a fixed point of MixColumns. -/
def Obligations.InverseTransformsUndo : Prop :=
  (∀ (t : Block) (w : List Word) (r : Nat),
    invSubBytes (subBytes t) = t ∧ invShiftRows (shiftRows t) = t ∧ invMixColumns (mixColumns t) = t ∧
    mixColumns (invMixColumns t) = t ∧ addRoundKey w r (addRoundKey w r t) = t ∧
    shiftRows (subBytes t) = subBytes (shiftRows t) ∧ invShiftRows (invSubBytes t) = invSubBytes (invShiftRows t)) ∧
  (∀ a : Byte, mixColumn #v[a, a, a, a] = #v[a, a, a, a])

/-- R149, R150: `Cipher` is the whitening with round key 0, the rounds 1 to Nr-1 with MixColumns, and the final round without it;
`enc r` is the state after round `r`. R151 (with 90_conflicts.md C1): `InvCipher` is AddRoundKey with round key Nr, the rounds Nr-1
down to 1, and the final step; `dec r` is the state after round `r`, `dec nr` the one the rounds start from. R152: decryption undoes
encryption and encryption undoes decryption, for every schedule, round count and block. -/
def Obligations.CipherAndInvCipherUndoEachOther : Prop :=
  ∀ (w : List Word) (nr : Nat) (b : Block),
    (1 ≤ nr → ∃ enc : Nat → Block,
      enc 0 = addRoundKey w 0 b ∧
      (∀ r, 1 ≤ r → r < nr → enc r = addRoundKey w r (mixColumns (shiftRows (subBytes (enc (r - 1)))))) ∧
      cipher w nr b = addRoundKey w nr (shiftRows (subBytes (enc (nr - 1))))) ∧
    (1 ≤ nr → ∃ dec : Nat → Block,
      dec nr = addRoundKey w nr b ∧
      (∀ r, 1 ≤ r → r < nr → dec r = invMixColumns (addRoundKey w r (invSubBytes (invShiftRows (dec (r + 1)))))) ∧
      invCipher w nr b = addRoundKey w 0 (invSubBytes (invShiftRows (dec 1)))) ∧
    invCipher w nr (cipher w nr b) = b ∧ cipher w nr (invCipher w nr b) = b

/-- R30, R31, R32, R61: the byte order of the block registers, and IV as the 128-bit counter. -/
def Obligations.BlockRegistersAreBigEndian : Prop :=
  (∀ (v : Vector Word 4) (i j : Nat) (hi : i < 4) (hj : j < 4), (blockOfWords v)[4 * i + j] = byteOf v[i] j) ∧
  (∀ (b : Block) (i : Nat) (hi : i < 4),
    (wordsOfBlock b)[i].toNat =
      b[4 * i].toNat * 2 ^ 24 + b[4 * i + 1].toNat * 2 ^ 16 + b[4 * i + 2].toNat * 2 ^ 8 + b[4 * i + 3].toNat) ∧
  (∀ v : Vector Word 4, be128 (blockOfWords v) =
    v[0].toNat * 2 ^ 96 + v[1].toNat * 2 ^ 64 + v[2].toNat * 2 ^ 32 + v[3].toNat)
end

