-- ==== Sys2Proof/Laws/KeySchedule.lean ====
section
/-! SUPPORT. The schedule: its length, the words a longer loop keeps, and the round-key store as the schedule the pipeline reads. -/

namespace Sys2Proof.Machine

@[simp] theorem length_extendSchedule (nk : Nat) (key : List Word) (n : Nat) :
    (extendSchedule nk key n).length = key.length + n := by
  induction n with
  | zero => rfl
  | succ n ih => rw [extendSchedule, List.length_append, ih]; rfl

/-- A longer loop keeps the words of a shorter one. -/
theorem extendSchedule_getD_of_lt (nk : Nat) (key : List Word) {i n m : Nat} (hi : i < key.length + n) (hnm : n ≤ m) :
    (extendSchedule nk key m).getD i 0 = (extendSchedule nk key n).getD i 0 := by
  induction m, hnm using Nat.le_induction with
  | base => rfl
  | succ m hm ih =>
    rw [extendSchedule, List.getD_append _ _ _ _ (by rw [length_extendSchedule]; omega), ih]

/-- The key words stand first. -/
theorem extendSchedule_getD_key (nk : Nat) (key : List Word) {i : Nat} (hi : i < key.length) (n : Nat) :
    (extendSchedule nk key n).getD i 0 = key.getD i 0 :=
  extendSchedule_getD_of_lt nk key (n := 0) hi (Nat.zero_le n)

/-- The word a turn of the loop adds, from the words before it. -/
theorem extendSchedule_getD_new (nk : Nat) (key : List Word) (hk : key.length = nk) (hpos : 0 < nk) {i n : Nat}
    (h1 : nk ≤ i) (h2 : i < nk + n) :
    (extendSchedule nk key n).getD i 0 = scheduleWord nk (extendSchedule nk key n) i := by
  obtain ⟨m, rfl⟩ : ∃ m, i = nk + m := ⟨i - nk, by omega⟩
  rw [extendSchedule_getD_of_lt nk key (n := m + 1) (by omega) (by omega)]
  rw [extendSchedule, List.getD_append_right _ _ _ _ (by rw [length_extendSchedule]; omega), length_extendSchedule, hk,
    Nat.sub_self, List.getD_cons_zero, scheduleWord, scheduleWord,
    extendSchedule_getD_of_lt nk key (m := n) (n := m) (by omega) (by omega),
    extendSchedule_getD_of_lt nk key (m := n) (n := m) (by omega) (by omega)]

@[simp] theorem length_keyWords (key : Vector Word 8) (k : KeySize) : (keyWords key k).length = k.nk := by
  rw [keyWords, List.length_take, Vector.length_toList]
  cases k <;> decide

/-- "exactly `KeySize.Nr + 1` round keys", four words each (R121). -/
@[simp] theorem length_keyExpansion (key : Vector Word 8) (k : KeySize) :
    (keyExpansion (keyWords key k) k).length = k.scheduleWords := by
  rw [keyExpansion, length_extendSchedule, length_keyWords]
  cases k <;> decide

/-- The schedule the round pipeline reads from the store an expansion left is the schedule (R34, R126). -/
@[simp] theorem take_roundKeyStore (key : Vector Word 8) (k : KeySize) :
    (roundKeyStore key k).toList.take k.scheduleWords = keyExpansion (keyWords key k) k := by
  have hle : k.scheduleWords ≤ 60 := by cases k <;> decide
  apply List.ext_getElem
  · rw [List.length_take, Vector.length_toList, length_keyExpansion, Nat.min_eq_left hle]
  · intro i h1 h2
    have hi : i < k.scheduleWords := by rwa [length_keyExpansion] at h2
    have hs : (roundKeyStore key k)[i]'(by omega) = (keyExpansion (keyWords key k) k).getD i 0 := by
      rw [roundKeyStore, Vector.getElem_ofFn]
      exact if_pos hi
    rw [List.getElem_take, Vector.getElem_toList, hs]
    exact List.getD_eq_getElem _ _ h2

/-- The schedule after an expansion step. -/
@[simp] theorem schedule_expandStep (k : KeySize) (s : State) :
    schedule k (expandStep k s) = keyExpansion (keyWords s.key k) k :=
  take_roundKeyStore s.key k

end Sys2Proof.Machine
end

