-- ==== Sys2Proof/Laws/Memory.lean ====
section
/-! SUPPORT. Message memory: what a byte reads as after a write, and that every write keeps the canonical form. -/

namespace Sys2Proof.Machine

@[simp] theorem readByte_nil (a : Nat) : Memory.readByte [] a = unlistedByte := rfl

@[simp] theorem readByte_cons (k : Nat) (v : Byte) (m : Memory) (a : Nat) :
    Memory.readByte ((k, v) :: m) a = if a = k then v else Memory.readByte m a := rfl

/-- An address below every cell reads as unlisted. -/
theorem readByte_of_lt {m : Memory} {a : Nat} (h : ∀ c ∈ m, a < c.1) : m.readByte a = unlistedByte := by
  induction m with
  | nil => rfl
  | cons c m ih =>
    obtain ⟨k, v⟩ := c
    have hk : a < k := h (k, v) (by simp)
    rw [readByte_cons, if_neg (by omega)]
    exact ih fun c hc => h c (by simp [hc])

theorem consCell_readByte {m : Memory} {k : Nat} (h : ∀ c ∈ m, k < c.1) (v : Byte) (a : Nat) :
    (Memory.consCell k v m).readByte a = if a = k then v else m.readByte a := by
  unfold Memory.consCell
  split
  · rename_i hv
    split
    · rename_i ha
      subst ha
      rw [readByte_of_lt h, hv]
    · rfl
  · rfl

/-- A byte reads as it was last written, in a memory whose addresses rise. -/
theorem readByte_writeByte {m : Memory} (h : m.Pairwise (fun c d => c.1 < d.1)) (k : Nat) (v : Byte) (a : Nat) :
    (m.writeByte k v).readByte a = if a = k then v else m.readByte a := by
  induction m with
  | nil => exact consCell_readByte (by simp) v a
  | cons c m ih =>
    obtain ⟨k', u⟩ := c
    rw [List.pairwise_cons] at h
    rw [Memory.writeByte]
    split
    · rename_i hlt
      refine consCell_readByte (fun c hc => ?_) v a
      rcases List.mem_cons.1 hc with rfl | hc
      · exact hlt
      · exact Nat.lt_trans hlt (h.1 c hc)
    · split
      · rename_i _ heq
        subst heq
        rw [consCell_readByte (fun c hc => h.1 c hc), readByte_cons]
        split <;> rfl
      · rename_i _ hne
        rw [readByte_cons, readByte_cons, ih h.2]
        split
        · rw [if_neg (by omega)]
        · rfl

/-- Every cell of a written memory is the written one or an old one. -/
theorem mem_writeByte {m : Memory} {k : Nat} {v : Byte} {c : Host.Cell} (h : c ∈ m.writeByte k v) :
    (c = (k, v) ∧ v ≠ unlistedByte) ∨ c ∈ m := by
  induction m with
  | nil =>
    simp only [Memory.writeByte, Memory.consCell] at h
    split at h
    · exact absurd h (by simp)
    · exact .inl ⟨by simpa using h, ‹_›⟩
  | cons d m ih =>
    obtain ⟨k', u⟩ := d
    simp only [Memory.writeByte, Memory.consCell] at h
    split at h
    · split at h
      · exact .inr h
      · rcases List.mem_cons.1 h with rfl | h
        · exact .inl ⟨rfl, ‹_›⟩
        · exact .inr h
    · split at h
      · split at h
        · exact .inr (by simp [h])
        · rcases List.mem_cons.1 h with rfl | h
          · exact .inl ⟨rfl, ‹_›⟩
          · exact .inr (by simp [h])
      · rcases List.mem_cons.1 h with rfl | h
        · exact .inr (by simp)
        · rcases ih h with h | h
          · exact .inl h
          · exact .inr (by simp [h])

theorem writeByte_pairwise {m : Memory} (h : m.Pairwise (fun c d => c.1 < d.1)) (k : Nat) (v : Byte) :
    (m.writeByte k v).Pairwise (fun c d => c.1 < d.1) := by
  induction m with
  | nil =>
    simp only [Memory.writeByte, Memory.consCell]
    split <;> simp
  | cons d m ih =>
    obtain ⟨k', u⟩ := d
    have h' := List.pairwise_cons.1 h
    simp only [Memory.writeByte, Memory.consCell]
    split
    · rename_i hlt
      split
      · exact h
      · refine List.pairwise_cons.2 ⟨fun c hc => ?_, h⟩
        rcases List.mem_cons.1 hc with rfl | hc
        · exact hlt
        · exact Nat.lt_trans hlt (h'.1 c hc)
    · rename_i hnlt
      split
      · rename_i heq
        split
        · exact h'.2
        · exact List.pairwise_cons.2 ⟨fun c hc => by simpa [heq] using h'.1 c hc, h'.2⟩
      · rename_i hne
        refine List.pairwise_cons.2 ⟨fun c hc => ?_, ih h'.2⟩
        rcases mem_writeByte hc with ⟨rfl, -⟩ | hc
        · show k' < k
          omega
        · exact h'.1 c hc

/-- Writing a byte at an existing address keeps the canonical form. -/
theorem writeByte_wf {m : Memory} (h : m.wf) {k : Nat} (hk : k < memorySize) (v : Byte) : (m.writeByte k v).wf := by
  refine ⟨writeByte_pairwise h.1 k v, fun c hc => ?_⟩
  rcases mem_writeByte hc with ⟨rfl, hv⟩ | hc
  · exact ⟨hk, hv⟩
  · exact h.2 c hc

theorem writeBytes_pairwise {m : Memory} (h : m.Pairwise (fun c d => c.1 < d.1)) (a : Nat) (vs : List Byte) :
    (m.writeBytes a vs).Pairwise (fun c d => c.1 < d.1) := by
  induction vs generalizing m a with
  | nil => exact h
  | cons v vs ih => exact ih (writeByte_pairwise h a v) (a + 1)

/-- Writing bytes inside the address space keeps the canonical form. -/
theorem writeBytes_wf {m : Memory} (h : m.wf) {a : Nat} {vs : List Byte} (ha : a + vs.length ≤ memorySize) :
    (m.writeBytes a vs).wf := by
  induction vs generalizing m a with
  | nil => exact h
  | cons v vs ih =>
    rw [List.length_cons] at ha
    exact ih (writeByte_wf h (by omega) v) (by omega)

/-- What a byte reads as after `writeBytes`: the byte written there, or what it was. -/
theorem readByte_writeBytes {m : Memory} (h : m.Pairwise (fun c d => c.1 < d.1)) (a : Nat) (vs : List Byte) (x : Nat) :
    (m.writeBytes a vs).readByte x =
      if a ≤ x ∧ x < a + vs.length then vs.getD (x - a) 0 else m.readByte x := by
  induction vs generalizing m a with
  | nil => rw [if_neg (by simp)]; rfl
  | cons v vs ih =>
    rw [Memory.writeBytes, ih (writeByte_pairwise h a v), readByte_writeByte h, List.length_cons]
    by_cases h1 : x = a
    · subst h1
      rw [if_neg (by omega), if_pos rfl, if_pos (by omega)]
      simp
    · rw [if_neg h1]
      by_cases h2 : a + 1 ≤ x ∧ x < a + 1 + vs.length
      · rw [if_pos h2, if_pos (by omega), show x - a = (x - (a + 1)) + 1 by omega, List.getD_cons_succ]
      · rw [if_neg h2, if_neg (by omega)]

/-- A byte after a block was written. -/
theorem readByte_writeBlock {m : Memory} (h : m.Pairwise (fun c d => c.1 < d.1)) (a : Nat) (b : Block) (x : Nat) :
    (m.writeBlock a b).readByte x =
      if hx : a ≤ x ∧ x < a + 16 then b[x - a]'(by omega) else m.readByte x := by
  rw [Memory.writeBlock, readByte_writeBytes h, Vector.length_toList]
  split
  · rename_i hx
    rw [List.getD_eq_getElem _ _ (by rw [Vector.length_toList]; omega), Vector.getElem_toList]
  · rfl

theorem writeBlock_wf {m : Memory} (h : m.wf) {a : Nat} (ha : a + 16 ≤ memorySize) (b : Block) : (m.writeBlock a b).wf :=
  writeBytes_wf h (by rw [Vector.length_toList]; exact ha)

@[simp] theorem readBlock_getElem (m : Memory) (a j : Nat) (hj : j < 16) :
    (m.readBlock a)[j] = m.readByte (a + j) := by
  simp [Memory.readBlock]

/-- A block reads back as it was written. -/
theorem readBlock_writeBlock_same {m : Memory} (h : m.Pairwise (fun c d => c.1 < d.1)) (a : Nat) (b : Block) :
    (m.writeBlock a b).readBlock a = b := by
  apply Vector.ext
  intro j hj
  rw [readBlock_getElem, readByte_writeBlock h, dif_pos (by omega)]
  congr 1
  omega

/-- A block that shares no address with the written one reads as before. -/
theorem readBlock_writeBlock_apart {m : Memory} (h : m.Pairwise (fun c d => c.1 < d.1)) {a a' : Nat}
    (hd : a' + 16 ≤ a ∨ a + 16 ≤ a') (b : Block) : (m.writeBlock a b).readBlock a' = m.readBlock a' := by
  apply Vector.ext
  intro j hj
  rw [readBlock_getElem, readBlock_getElem, readByte_writeBlock h, dif_neg (by omega)]

end Sys2Proof.Machine
end

