-- ==== Sys2Proof/Laws/Operands.lean ====
section
/-! SUPPORT. Byte order: words and their bytes, blocks and their registers, blocks and their 128-bit numbers are inverse views. -/

namespace Sys2Proof.Machine

theorem be32_byteOf (w : Word) : be32 (byteOf w 0) (byteOf w 1) (byteOf w 2) (byteOf w 3) = w := by
  apply BitVec.eq_of_getLsbD_eq
  intro i hi
  simp only [byteOf, be32, BitVec.getLsbD_extractLsb', BitVec.getLsbD_append]
  repeat' split
  all_goals
    rw [decide_eq_true (by omega), Bool.true_and]
    congr 1
    omega

@[simp] theorem wordsOfBlock_blockOfWords (v : Vector Word 4) : wordsOfBlock (blockOfWords v) = v := by
  apply Vector.ext
  intro i hi
  have h : ∀ j, j < 4 → (4 * i + j) / 4 = i ∧ (4 * i + j) % 4 = j := by omega
  have e : ∀ j (hj : j < 4), (blockOfWords v)[4 * i + j]'(by omega) = byteOf v[i] j := by
    intro j hj
    simp only [blockOfWords, Vector.getElem_ofFn, (h j hj).1, (h j hj).2]
  simp only [wordsOfBlock, Vector.getElem_ofFn]
  rw [← be32_byteOf v[i], e 1 (by omega), e 2 (by omega), e 3 (by omega)]
  rw [show (blockOfWords v)[4 * i] = (blockOfWords v)[4 * i + 0] from rfl, e 0 (by omega)]

theorem byteOf_be32 (b0 b1 b2 b3 : Byte) :
    byteOf (be32 b0 b1 b2 b3) 0 = b0 ∧ byteOf (be32 b0 b1 b2 b3) 1 = b1 ∧ byteOf (be32 b0 b1 b2 b3) 2 = b2 ∧
      byteOf (be32 b0 b1 b2 b3) 3 = b3 := by
  refine ⟨?_, ?_, ?_, ?_⟩ <;>
    (apply BitVec.eq_of_getLsbD_eq
     intro i hi
     simp only [byteOf, be32, BitVec.getLsbD_extractLsb', BitVec.getLsbD_append, hi, decide_true, Bool.true_and]
     repeat' split
     all_goals first
       | omega
       | (congr 1; omega))

@[simp] theorem blockOfWords_wordsOfBlock (b : Block) : blockOfWords (wordsOfBlock b) = b := by
  apply Vector.ext
  intro n hn
  simp only [wordsOfBlock, blockOfWords, Vector.getElem_ofFn]
  obtain h | h | h | h : n % 4 = 0 ∨ n % 4 = 1 ∨ n % 4 = 2 ∨ n % 4 = 3 := by omega
  · rw [h, (byteOf_be32 _ _ _ _).1]; congr 1; omega
  · rw [h, (byteOf_be32 _ _ _ _).2.1]; congr 1; omega
  · rw [h, (byteOf_be32 _ _ _ _).2.2.1]; congr 1; omega
  · rw [h, (byteOf_be32 _ _ _ _).2.2.2]; congr 1; omega

theorem beNat_lt (l : List Byte) : beNat l < 2 ^ (8 * l.length) := by
  induction l with
  | nil => simp [beNat]
  | cons b l ih =>
    have hb : b.toNat + 1 ≤ 2 ^ 8 := b.isLt
    calc beNat (b :: l) < b.toNat * 2 ^ (8 * l.length) + 2 ^ (8 * l.length) := Nat.add_lt_add_left ih _
      _ = (b.toNat + 1) * 2 ^ (8 * l.length) := by ring
      _ ≤ 2 ^ 8 * 2 ^ (8 * l.length) := Nat.mul_le_mul_right _ hb
      _ = 2 ^ (8 * (b :: l).length) := by rw [← Nat.pow_add, List.length_cons]; congr 1; omega

/-- Byte `j` of a string is digit `j` of its number. -/
theorem beNat_digit (l : List Byte) (j : Nat) (hj : j < l.length) :
    beNat l / 2 ^ (8 * (l.length - 1 - j)) % 2 ^ 8 = l[j].toNat := by
  induction l generalizing j with
  | nil => simp at hj
  | cons b l ih =>
    cases j with
    | zero =>
      simp only [beNat, List.length_cons, Nat.add_sub_cancel, Nat.sub_zero, List.getElem_cons_zero]
      rw [Nat.mul_comm, Nat.mul_add_div (by positivity), Nat.div_eq_of_lt (beNat_lt l), Nat.add_zero,
        Nat.mod_eq_of_lt b.isLt]
    | succ j =>
      rw [List.length_cons] at hj
      have e : 8 * l.length = 8 * (l.length - 1 - j) + 8 * (j + 1) := by omega
      simp only [beNat, List.length_cons, List.getElem_cons_succ, Nat.add_sub_cancel]
      rw [show 8 * (l.length - (j + 1)) = 8 * (l.length - 1 - j) by omega, ← ih j (by omega), e, Nat.pow_add,
        show b.toNat * (2 ^ (8 * (l.length - 1 - j)) * 2 ^ (8 * (j + 1))) =
          2 ^ (8 * (l.length - 1 - j)) * (2 ^ 8 * (b.toNat * 2 ^ (8 * j))) by ring,
        Nat.mul_add_div (by positivity), Nat.mul_add_mod]

/-- Strings of one length with the same number are equal. -/
theorem beNat_inj {l l' : List Byte} (h : l.length = l'.length) (e : beNat l = beNat l') : l = l' := by
  apply List.ext_getElem h
  intro j h1 h2
  apply BitVec.eq_of_toNat_eq
  rw [← beNat_digit l j h1, ← beNat_digit l' j h2, e, h]

theorem be128_lt (b : Block) : be128 b < 2 ^ 128 := by
  simpa [be128] using beNat_lt b.toList

theorem toBe128_be128 (b : Block) : toBe128 (be128 b) = b := by
  apply Vector.ext
  intro j hj
  apply BitVec.eq_of_toNat_eq
  have h := beNat_digit b.toList j (by simpa using hj)
  simpa [toBe128, be128] using h

/-- The digits of a number below `2^(8n)`, most significant first, are its bytes. -/
theorem beNat_digits (n : Nat) : ∀ x, x < 2 ^ (8 * n) →
    beNat ((List.range n).map fun j => BitVec.ofNat 8 (x / 2 ^ (8 * (n - 1 - j)))) = x := by
  induction n with
  | zero => intro x h; simp at h; simp [beNat, h]
  | succ n ih =>
    intro x h
    have hlen : ((List.range n).map fun j => BitVec.ofNat 8 (x / 2 ^ (8 * (n - 1 - j)))).length = n := by simp
    have hq : x / 2 ^ (8 * n) < 2 ^ 8 := by
      rw [Nat.div_lt_iff_lt_mul (by positivity), ← Nat.pow_add]
      exact lt_of_lt_of_le h (Nat.pow_le_pow_right (by norm_num) (by omega))
    have hr := ih (x % 2 ^ (8 * n)) (Nat.mod_lt _ (by positivity))
    have hm : ∀ j ∈ List.range n, BitVec.ofNat 8 (x / 2 ^ (8 * (n - 1 - j))) =
        BitVec.ofNat 8 (x % 2 ^ (8 * n) / 2 ^ (8 * (n - 1 - j))) := by
      intro j hj
      have hj := List.mem_range.1 hj
      apply BitVec.eq_of_toNat_eq
      rw [BitVec.toNat_ofNat, BitVec.toNat_ofNat]
      have e : 8 * n = 8 * (n - 1 - j) + (8 + 8 * j) := by omega
      rw [e, Nat.pow_add, Nat.mod_mul_right_div_self, Nat.pow_add, Nat.mod_mul_right_mod]
    rw [List.range_succ_eq_map, List.map_cons, List.map_map, beNat]
    have hs : (List.map ((fun j => BitVec.ofNat 8 (x / 2 ^ (8 * (n + 1 - 1 - j)))) ∘ Nat.succ) (List.range n)) =
        (List.range n).map fun j => BitVec.ofNat 8 (x % 2 ^ (8 * n) / 2 ^ (8 * (n - 1 - j))) := by
      apply List.map_congr_left
      intro j hj
      rw [← hm j hj]
      simp only [Function.comp]
      congr 3
      omega
    rw [hs, hr, List.length_map, List.length_range, BitVec.toNat_ofNat, Nat.add_sub_cancel, Nat.sub_zero,
      Nat.mod_eq_of_lt hq, Nat.div_add_mod']

theorem be128_toBe128 (n : Nat) (h : n < 2 ^ 128) : be128 (toBe128 n) = n := by
  have e := beNat_digits 16 n h
  rw [be128]
  convert e using 2
  apply List.ext_getElem
  · simp
  · intro j h1 h2
    simp [toBe128]

theorem be128_nextCounter (b : Block) : be128 (nextCounter b) = (be128 b + 1) % 2 ^ 128 :=
  be128_toBe128 _ (Nat.mod_lt _ (by positivity))
end Sys2Proof.Machine
end

