-- ==== Sys2Proof/Laws/State.lean ====
section
/-! SUPPORT. One lemma per field of State per named update, each true by rfl, so that no later proof unfolds an update. -/

namespace Sys2Proof.Machine

/-! ### `raiseError` -/

@[simp] theorem raiseError_cmd (e : ErrorCode) (s : State) : (raiseError e s).cmd = s.cmd := rfl
@[simp] theorem raiseError_done (e : ErrorCode) (s : State) : (raiseError e s).done = true := rfl
@[simp] theorem raiseError_wign (e : ErrorCode) (s : State) : (raiseError e s).wign = s.wign := rfl
@[simp] theorem raiseError_errCode (e : ErrorCode) (s : State) : (raiseError e s).errCode = e := rfl
@[simp] theorem raiseError_ksSize (e : ErrorCode) (s : State) : (raiseError e s).ksSize = s.ksSize := rfl
@[simp] theorem raiseError_blkCnt (e : ErrorCode) (s : State) : (raiseError e s).blkCnt = s.blkCnt := rfl
@[simp] theorem raiseError_key (e : ErrorCode) (s : State) : (raiseError e s).key = s.key := rfl
@[simp] theorem raiseError_iv (e : ErrorCode) (s : State) : (raiseError e s).iv = s.iv := rfl
@[simp] theorem raiseError_din (e : ErrorCode) (s : State) : (raiseError e s).din = s.din := rfl
@[simp] theorem raiseError_dout (e : ErrorCode) (s : State) : (raiseError e s).dout = s.dout := rfl
@[simp] theorem raiseError_src (e : ErrorCode) (s : State) : (raiseError e s).src = s.src := rfl
@[simp] theorem raiseError_dst (e : ErrorCode) (s : State) : (raiseError e s).dst = s.dst := rfl
@[simp] theorem raiseError_len (e : ErrorCode) (s : State) : (raiseError e s).len = s.len := rfl
@[simp] theorem raiseError_rk (e : ErrorCode) (s : State) : (raiseError e s).rk = s.rk := rfl
@[simp] theorem raiseError_seq (e : ErrorCode) (s : State) : (raiseError e s).seq = .idle := rfl
@[simp] theorem raiseError_mem (e : ErrorCode) (s : State) : (raiseError e s).mem = s.mem := rfl
@[simp] theorem raiseError_platform (e : ErrorCode) (s : State) : (raiseError e s).platform = s.platform := rfl
@[simp] theorem raiseError_moves (e : ErrorCode) (s : State) : (raiseError e s).moves = s.moves := rfl
@[simp] theorem raiseError_lastRead (e : ErrorCode) (s : State) : (raiseError e s).lastRead = s.lastRead := rfl
@[simp] theorem raiseError_lastMemRead (e : ErrorCode) (s : State) : (raiseError e s).lastMemRead = s.lastMemRead := rfl
@[simp] theorem raiseError_draws (e : ErrorCode) (s : State) : (raiseError e s).draws = s.draws := rfl

/-! ### `complete` -/

@[simp] theorem complete_cmd (s : State) : (complete s).cmd = s.cmd := rfl
@[simp] theorem complete_done (s : State) : (complete s).done = true := rfl
@[simp] theorem complete_wign (s : State) : (complete s).wign = s.wign := rfl
@[simp] theorem complete_errCode (s : State) : (complete s).errCode = s.errCode := rfl
@[simp] theorem complete_ksSize (s : State) : (complete s).ksSize = s.ksSize := rfl
@[simp] theorem complete_blkCnt (s : State) : (complete s).blkCnt = s.blkCnt := rfl
@[simp] theorem complete_key (s : State) : (complete s).key = s.key := rfl
@[simp] theorem complete_iv (s : State) : (complete s).iv = s.iv := rfl
@[simp] theorem complete_din (s : State) : (complete s).din = s.din := rfl
@[simp] theorem complete_dout (s : State) : (complete s).dout = s.dout := rfl
@[simp] theorem complete_src (s : State) : (complete s).src = s.src := rfl
@[simp] theorem complete_dst (s : State) : (complete s).dst = s.dst := rfl
@[simp] theorem complete_len (s : State) : (complete s).len = s.len := rfl
@[simp] theorem complete_rk (s : State) : (complete s).rk = s.rk := rfl
@[simp] theorem complete_seq (s : State) : (complete s).seq = .idle := rfl
@[simp] theorem complete_mem (s : State) : (complete s).mem = s.mem := rfl
@[simp] theorem complete_platform (s : State) : (complete s).platform = s.platform := rfl
@[simp] theorem complete_moves (s : State) : (complete s).moves = s.moves := rfl
@[simp] theorem complete_lastRead (s : State) : (complete s).lastRead = s.lastRead := rfl
@[simp] theorem complete_lastMemRead (s : State) : (complete s).lastMemRead = s.lastMemRead := rfl
@[simp] theorem complete_draws (s : State) : (complete s).draws = s.draws := rfl

/-! ### `accept` -/

@[simp] theorem accept_cmd (op : Op) (k : KeySize) (s : State) : (accept op k s).cmd = s.cmd := rfl
@[simp] theorem accept_done (op : Op) (k : KeySize) (s : State) : (accept op k s).done = false := rfl
@[simp] theorem accept_wign (op : Op) (k : KeySize) (s : State) : (accept op k s).wign = s.wign := rfl
@[simp] theorem accept_errCode (op : Op) (k : KeySize) (s : State) : (accept op k s).errCode = .ok := rfl
@[simp] theorem accept_ksSize (op : Op) (k : KeySize) (s : State) : (accept op k s).ksSize = s.ksSize := rfl
@[simp] theorem accept_blkCnt (op : Op) (k : KeySize) (s : State) : (accept op k s).blkCnt = 0 := rfl
@[simp] theorem accept_key (op : Op) (k : KeySize) (s : State) : (accept op k s).key = s.key := rfl
@[simp] theorem accept_iv (op : Op) (k : KeySize) (s : State) : (accept op k s).iv = s.iv := rfl
@[simp] theorem accept_din (op : Op) (k : KeySize) (s : State) : (accept op k s).din = s.din := rfl
@[simp] theorem accept_dout (op : Op) (k : KeySize) (s : State) : (accept op k s).dout = s.dout := rfl
@[simp] theorem accept_src (op : Op) (k : KeySize) (s : State) : (accept op k s).src = s.src := rfl
@[simp] theorem accept_dst (op : Op) (k : KeySize) (s : State) : (accept op k s).dst = s.dst := rfl
@[simp] theorem accept_len (op : Op) (k : KeySize) (s : State) : (accept op k s).len = s.len := rfl
@[simp] theorem accept_rk (op : Op) (k : KeySize) (s : State) : (accept op k s).rk = s.rk := rfl
@[simp] theorem accept_seq (op : Op) (k : KeySize) (s : State) : (accept op k s).seq = .run (startRun op k s) := rfl
@[simp] theorem accept_mem (op : Op) (k : KeySize) (s : State) : (accept op k s).mem = s.mem := rfl
@[simp] theorem accept_platform (op : Op) (k : KeySize) (s : State) : (accept op k s).platform = s.platform := rfl
@[simp] theorem accept_moves (op : Op) (k : KeySize) (s : State) : (accept op k s).moves = s.moves := rfl
@[simp] theorem accept_lastRead (op : Op) (k : KeySize) (s : State) : (accept op k s).lastRead = s.lastRead := rfl
@[simp] theorem accept_lastMemRead (op : Op) (k : KeySize) (s : State) : (accept op k s).lastMemRead = s.lastMemRead := rfl
@[simp] theorem accept_draws (op : Op) (k : KeySize) (s : State) : (accept op k s).draws = s.draws := rfl

/-! ### `expandStep` -/

@[simp] theorem expandStep_cmd (k : KeySize) (s : State) : (expandStep k s).cmd = s.cmd := rfl
@[simp] theorem expandStep_done (k : KeySize) (s : State) : (expandStep k s).done = s.done := rfl
@[simp] theorem expandStep_wign (k : KeySize) (s : State) : (expandStep k s).wign = s.wign := rfl
@[simp] theorem expandStep_errCode (k : KeySize) (s : State) : (expandStep k s).errCode = s.errCode := rfl
@[simp] theorem expandStep_ksSize (k : KeySize) (s : State) : (expandStep k s).ksSize = some k := rfl
@[simp] theorem expandStep_blkCnt (k : KeySize) (s : State) : (expandStep k s).blkCnt = s.blkCnt := rfl
@[simp] theorem expandStep_key (k : KeySize) (s : State) : (expandStep k s).key = s.key := rfl
@[simp] theorem expandStep_iv (k : KeySize) (s : State) : (expandStep k s).iv = s.iv := rfl
@[simp] theorem expandStep_din (k : KeySize) (s : State) : (expandStep k s).din = s.din := rfl
@[simp] theorem expandStep_dout (k : KeySize) (s : State) : (expandStep k s).dout = s.dout := rfl
@[simp] theorem expandStep_src (k : KeySize) (s : State) : (expandStep k s).src = s.src := rfl
@[simp] theorem expandStep_dst (k : KeySize) (s : State) : (expandStep k s).dst = s.dst := rfl
@[simp] theorem expandStep_len (k : KeySize) (s : State) : (expandStep k s).len = s.len := rfl
@[simp] theorem expandStep_rk (k : KeySize) (s : State) : (expandStep k s).rk = roundKeyStore s.key k := rfl
@[simp] theorem expandStep_seq (k : KeySize) (s : State) : (expandStep k s).seq = s.seq := rfl
@[simp] theorem expandStep_mem (k : KeySize) (s : State) : (expandStep k s).mem = s.mem := rfl
@[simp] theorem expandStep_platform (k : KeySize) (s : State) : (expandStep k s).platform = s.platform := rfl
@[simp] theorem expandStep_moves (k : KeySize) (s : State) : (expandStep k s).moves = s.moves := rfl
@[simp] theorem expandStep_lastRead (k : KeySize) (s : State) : (expandStep k s).lastRead = s.lastRead := rfl
@[simp] theorem expandStep_lastMemRead (k : KeySize) (s : State) : (expandStep k s).lastMemRead = s.lastMemRead := rfl
@[simp] theorem expandStep_draws (k : KeySize) (s : State) : (expandStep k s).draws = s.draws := rfl

/-! ### `enterPhase` -/

@[simp] theorem enterPhase_cmd (r : Run) (p : Phase) (s : State) : (enterPhase r p s).cmd = s.cmd := rfl
@[simp] theorem enterPhase_done (r : Run) (p : Phase) (s : State) : (enterPhase r p s).done = s.done := rfl
@[simp] theorem enterPhase_wign (r : Run) (p : Phase) (s : State) : (enterPhase r p s).wign = s.wign := rfl
@[simp] theorem enterPhase_errCode (r : Run) (p : Phase) (s : State) : (enterPhase r p s).errCode = s.errCode := rfl
@[simp] theorem enterPhase_ksSize (r : Run) (p : Phase) (s : State) : (enterPhase r p s).ksSize = s.ksSize := rfl
@[simp] theorem enterPhase_blkCnt (r : Run) (p : Phase) (s : State) : (enterPhase r p s).blkCnt = s.blkCnt := rfl
@[simp] theorem enterPhase_key (r : Run) (p : Phase) (s : State) : (enterPhase r p s).key = s.key := rfl
@[simp] theorem enterPhase_iv (r : Run) (p : Phase) (s : State) : (enterPhase r p s).iv = s.iv := rfl
@[simp] theorem enterPhase_din (r : Run) (p : Phase) (s : State) : (enterPhase r p s).din = s.din := rfl
@[simp] theorem enterPhase_dout (r : Run) (p : Phase) (s : State) : (enterPhase r p s).dout = s.dout := rfl
@[simp] theorem enterPhase_src (r : Run) (p : Phase) (s : State) : (enterPhase r p s).src = s.src := rfl
@[simp] theorem enterPhase_dst (r : Run) (p : Phase) (s : State) : (enterPhase r p s).dst = s.dst := rfl
@[simp] theorem enterPhase_len (r : Run) (p : Phase) (s : State) : (enterPhase r p s).len = s.len := rfl
@[simp] theorem enterPhase_rk (r : Run) (p : Phase) (s : State) : (enterPhase r p s).rk = s.rk := rfl
@[simp] theorem enterPhase_seq (r : Run) (p : Phase) (s : State) : (enterPhase r p s).seq = .run { r with phase := p } := rfl
@[simp] theorem enterPhase_mem (r : Run) (p : Phase) (s : State) : (enterPhase r p s).mem = s.mem := rfl
@[simp] theorem enterPhase_platform (r : Run) (p : Phase) (s : State) : (enterPhase r p s).platform = s.platform := rfl
@[simp] theorem enterPhase_moves (r : Run) (p : Phase) (s : State) : (enterPhase r p s).moves = s.moves := rfl
@[simp] theorem enterPhase_lastRead (r : Run) (p : Phase) (s : State) : (enterPhase r p s).lastRead = s.lastRead := rfl
@[simp] theorem enterPhase_lastMemRead (r : Run) (p : Phase) (s : State) : (enterPhase r p s).lastMemRead = s.lastMemRead := rfl
@[simp] theorem enterPhase_draws (r : Run) (p : Phase) (s : State) : (enterPhase r p s).draws = s.draws := rfl

/-! ### `singleBlockStep` -/

@[simp] theorem singleBlockStep_cmd (f : List Word → Nat → Block → Block) (r : Run) (s : State) : (singleBlockStep f r s).cmd = s.cmd := rfl
@[simp] theorem singleBlockStep_done (f : List Word → Nat → Block → Block) (r : Run) (s : State) : (singleBlockStep f r s).done = s.done := rfl
@[simp] theorem singleBlockStep_wign (f : List Word → Nat → Block → Block) (r : Run) (s : State) : (singleBlockStep f r s).wign = s.wign := rfl
@[simp] theorem singleBlockStep_errCode (f : List Word → Nat → Block → Block) (r : Run) (s : State) : (singleBlockStep f r s).errCode = s.errCode := rfl
@[simp] theorem singleBlockStep_ksSize (f : List Word → Nat → Block → Block) (r : Run) (s : State) : (singleBlockStep f r s).ksSize = s.ksSize := rfl
@[simp] theorem singleBlockStep_blkCnt (f : List Word → Nat → Block → Block) (r : Run) (s : State) : (singleBlockStep f r s).blkCnt = s.blkCnt := rfl
@[simp] theorem singleBlockStep_key (f : List Word → Nat → Block → Block) (r : Run) (s : State) : (singleBlockStep f r s).key = s.key := rfl
@[simp] theorem singleBlockStep_iv (f : List Word → Nat → Block → Block) (r : Run) (s : State) : (singleBlockStep f r s).iv = s.iv := rfl
@[simp] theorem singleBlockStep_din (f : List Word → Nat → Block → Block) (r : Run) (s : State) : (singleBlockStep f r s).din = s.din := rfl
@[simp] theorem singleBlockStep_dout (f : List Word → Nat → Block → Block) (r : Run) (s : State) : (singleBlockStep f r s).dout = wordsOfBlock (f (schedule r.kb s) r.kb.nr (blockOfWords s.din)) := rfl
@[simp] theorem singleBlockStep_src (f : List Word → Nat → Block → Block) (r : Run) (s : State) : (singleBlockStep f r s).src = s.src := rfl
@[simp] theorem singleBlockStep_dst (f : List Word → Nat → Block → Block) (r : Run) (s : State) : (singleBlockStep f r s).dst = s.dst := rfl
@[simp] theorem singleBlockStep_len (f : List Word → Nat → Block → Block) (r : Run) (s : State) : (singleBlockStep f r s).len = s.len := rfl
@[simp] theorem singleBlockStep_rk (f : List Word → Nat → Block → Block) (r : Run) (s : State) : (singleBlockStep f r s).rk = s.rk := rfl
@[simp] theorem singleBlockStep_seq (f : List Word → Nat → Block → Block) (r : Run) (s : State) : (singleBlockStep f r s).seq = .run { r with phase := .finish, work := some (f (schedule r.kb s) r.kb.nr (blockOfWords s.din)) } := rfl
@[simp] theorem singleBlockStep_mem (f : List Word → Nat → Block → Block) (r : Run) (s : State) : (singleBlockStep f r s).mem = s.mem := rfl
@[simp] theorem singleBlockStep_platform (f : List Word → Nat → Block → Block) (r : Run) (s : State) : (singleBlockStep f r s).platform = s.platform := rfl
@[simp] theorem singleBlockStep_moves (f : List Word → Nat → Block → Block) (r : Run) (s : State) : (singleBlockStep f r s).moves = s.moves := rfl
@[simp] theorem singleBlockStep_lastRead (f : List Word → Nat → Block → Block) (r : Run) (s : State) : (singleBlockStep f r s).lastRead = s.lastRead := rfl
@[simp] theorem singleBlockStep_lastMemRead (f : List Word → Nat → Block → Block) (r : Run) (s : State) : (singleBlockStep f r s).lastMemRead = s.lastMemRead := rfl
@[simp] theorem singleBlockStep_draws (f : List Word → Nat → Block → Block) (r : Run) (s : State) : (singleBlockStep f r s).draws = s.draws := rfl

/-! ### `finishBlock` -/

@[simp] theorem finishBlock_cmd (b : BlockResult) (r : Run) (i : Nat) (s : State) : (finishBlock b r i s).cmd = s.cmd := rfl
@[simp] theorem finishBlock_done (b : BlockResult) (r : Run) (i : Nat) (s : State) : (finishBlock b r i s).done = s.done := rfl
@[simp] theorem finishBlock_wign (b : BlockResult) (r : Run) (i : Nat) (s : State) : (finishBlock b r i s).wign = s.wign := rfl
@[simp] theorem finishBlock_errCode (b : BlockResult) (r : Run) (i : Nat) (s : State) : (finishBlock b r i s).errCode = s.errCode := rfl
@[simp] theorem finishBlock_ksSize (b : BlockResult) (r : Run) (i : Nat) (s : State) : (finishBlock b r i s).ksSize = s.ksSize := rfl
@[simp] theorem finishBlock_blkCnt (b : BlockResult) (r : Run) (i : Nat) (s : State) : (finishBlock b r i s).blkCnt = BitVec.ofNat 32 (i + 1) := rfl
@[simp] theorem finishBlock_key (b : BlockResult) (r : Run) (i : Nat) (s : State) : (finishBlock b r i s).key = s.key := rfl
@[simp] theorem finishBlock_iv (b : BlockResult) (r : Run) (i : Nat) (s : State) : (finishBlock b r i s).iv = wordsOfBlock b.iv := rfl
@[simp] theorem finishBlock_din (b : BlockResult) (r : Run) (i : Nat) (s : State) : (finishBlock b r i s).din = s.din := rfl
@[simp] theorem finishBlock_dout (b : BlockResult) (r : Run) (i : Nat) (s : State) : (finishBlock b r i s).dout = s.dout := rfl
@[simp] theorem finishBlock_src (b : BlockResult) (r : Run) (i : Nat) (s : State) : (finishBlock b r i s).src = s.src := rfl
@[simp] theorem finishBlock_dst (b : BlockResult) (r : Run) (i : Nat) (s : State) : (finishBlock b r i s).dst = s.dst := rfl
@[simp] theorem finishBlock_len (b : BlockResult) (r : Run) (i : Nat) (s : State) : (finishBlock b r i s).len = s.len := rfl
@[simp] theorem finishBlock_rk (b : BlockResult) (r : Run) (i : Nat) (s : State) : (finishBlock b r i s).rk = s.rk := rfl
@[simp] theorem finishBlock_seq (b : BlockResult) (r : Run) (i : Nat) (s : State) : (finishBlock b r i s).seq = .run { r with phase := phaseAfter r.nblk i, work := some b.work, lastIn := b.lastIn } := rfl
@[simp] theorem finishBlock_mem (b : BlockResult) (r : Run) (i : Nat) (s : State) : (finishBlock b r i s).mem = s.mem.writeBlock (blockAddress r.dst i) b.out := rfl
@[simp] theorem finishBlock_platform (b : BlockResult) (r : Run) (i : Nat) (s : State) : (finishBlock b r i s).platform = s.platform := rfl
@[simp] theorem finishBlock_moves (b : BlockResult) (r : Run) (i : Nat) (s : State) : (finishBlock b r i s).moves = s.moves := rfl
@[simp] theorem finishBlock_lastRead (b : BlockResult) (r : Run) (i : Nat) (s : State) : (finishBlock b r i s).lastRead = s.lastRead := rfl
@[simp] theorem finishBlock_lastMemRead (b : BlockResult) (r : Run) (i : Nat) (s : State) : (finishBlock b r i s).lastMemRead = s.lastMemRead := rfl
@[simp] theorem finishBlock_draws (b : BlockResult) (r : Run) (i : Nat) (s : State) : (finishBlock b r i s).draws = s.draws := rfl

/-! ### `ignoreWrite` -/

@[simp] theorem ignoreWrite_cmd (s : State) : (ignoreWrite s).cmd = s.cmd := rfl
@[simp] theorem ignoreWrite_done (s : State) : (ignoreWrite s).done = s.done := rfl
@[simp] theorem ignoreWrite_wign (s : State) : (ignoreWrite s).wign = true := rfl
@[simp] theorem ignoreWrite_errCode (s : State) : (ignoreWrite s).errCode = s.errCode := rfl
@[simp] theorem ignoreWrite_ksSize (s : State) : (ignoreWrite s).ksSize = s.ksSize := rfl
@[simp] theorem ignoreWrite_blkCnt (s : State) : (ignoreWrite s).blkCnt = s.blkCnt := rfl
@[simp] theorem ignoreWrite_key (s : State) : (ignoreWrite s).key = s.key := rfl
@[simp] theorem ignoreWrite_iv (s : State) : (ignoreWrite s).iv = s.iv := rfl
@[simp] theorem ignoreWrite_din (s : State) : (ignoreWrite s).din = s.din := rfl
@[simp] theorem ignoreWrite_dout (s : State) : (ignoreWrite s).dout = s.dout := rfl
@[simp] theorem ignoreWrite_src (s : State) : (ignoreWrite s).src = s.src := rfl
@[simp] theorem ignoreWrite_dst (s : State) : (ignoreWrite s).dst = s.dst := rfl
@[simp] theorem ignoreWrite_len (s : State) : (ignoreWrite s).len = s.len := rfl
@[simp] theorem ignoreWrite_rk (s : State) : (ignoreWrite s).rk = s.rk := rfl
@[simp] theorem ignoreWrite_seq (s : State) : (ignoreWrite s).seq = s.seq := rfl
@[simp] theorem ignoreWrite_mem (s : State) : (ignoreWrite s).mem = s.mem := rfl
@[simp] theorem ignoreWrite_platform (s : State) : (ignoreWrite s).platform = s.platform := rfl
@[simp] theorem ignoreWrite_moves (s : State) : (ignoreWrite s).moves = s.moves := rfl
@[simp] theorem ignoreWrite_lastRead (s : State) : (ignoreWrite s).lastRead = s.lastRead := rfl
@[simp] theorem ignoreWrite_lastMemRead (s : State) : (ignoreWrite s).lastMemRead = s.lastMemRead := rfl
@[simp] theorem ignoreWrite_draws (s : State) : (ignoreWrite s).draws = s.draws := rfl

/-! ### `writeStatus` -/

@[simp] theorem writeStatus_cmd (v : Word) (s : State) : (writeStatus v s).cmd = s.cmd := rfl
@[simp] theorem writeStatus_done (v : Word) (s : State) : (writeStatus v s).done = s.done := rfl
@[simp] theorem writeStatus_wign (v : Word) (s : State) : (writeStatus v s).wign = (s.wign && !v.getLsbD 4) := rfl
@[simp] theorem writeStatus_errCode (v : Word) (s : State) : (writeStatus v s).errCode = s.errCode := rfl
@[simp] theorem writeStatus_ksSize (v : Word) (s : State) : (writeStatus v s).ksSize = s.ksSize := rfl
@[simp] theorem writeStatus_blkCnt (v : Word) (s : State) : (writeStatus v s).blkCnt = s.blkCnt := rfl
@[simp] theorem writeStatus_key (v : Word) (s : State) : (writeStatus v s).key = s.key := rfl
@[simp] theorem writeStatus_iv (v : Word) (s : State) : (writeStatus v s).iv = s.iv := rfl
@[simp] theorem writeStatus_din (v : Word) (s : State) : (writeStatus v s).din = s.din := rfl
@[simp] theorem writeStatus_dout (v : Word) (s : State) : (writeStatus v s).dout = s.dout := rfl
@[simp] theorem writeStatus_src (v : Word) (s : State) : (writeStatus v s).src = s.src := rfl
@[simp] theorem writeStatus_dst (v : Word) (s : State) : (writeStatus v s).dst = s.dst := rfl
@[simp] theorem writeStatus_len (v : Word) (s : State) : (writeStatus v s).len = s.len := rfl
@[simp] theorem writeStatus_rk (v : Word) (s : State) : (writeStatus v s).rk = s.rk := rfl
@[simp] theorem writeStatus_seq (v : Word) (s : State) : (writeStatus v s).seq = s.seq := rfl
@[simp] theorem writeStatus_mem (v : Word) (s : State) : (writeStatus v s).mem = s.mem := rfl
@[simp] theorem writeStatus_platform (v : Word) (s : State) : (writeStatus v s).platform = s.platform := rfl
@[simp] theorem writeStatus_moves (v : Word) (s : State) : (writeStatus v s).moves = s.moves := rfl
@[simp] theorem writeStatus_lastRead (v : Word) (s : State) : (writeStatus v s).lastRead = s.lastRead := rfl
@[simp] theorem writeStatus_lastMemRead (v : Word) (s : State) : (writeStatus v s).lastMemRead = s.lastMemRead := rfl
@[simp] theorem writeStatus_draws (v : Word) (s : State) : (writeStatus v s).draws = s.draws := rfl

/-! ### `placeCommand` -/

@[simp] theorem placeCommand_cmd (c : Word) (s : State) : (placeCommand c s).cmd = s.cmd := rfl
@[simp] theorem placeCommand_done (c : Word) (s : State) : (placeCommand c s).done = s.done := rfl
@[simp] theorem placeCommand_wign (c : Word) (s : State) : (placeCommand c s).wign = s.wign := rfl
@[simp] theorem placeCommand_errCode (c : Word) (s : State) : (placeCommand c s).errCode = s.errCode := rfl
@[simp] theorem placeCommand_ksSize (c : Word) (s : State) : (placeCommand c s).ksSize = s.ksSize := rfl
@[simp] theorem placeCommand_blkCnt (c : Word) (s : State) : (placeCommand c s).blkCnt = s.blkCnt := rfl
@[simp] theorem placeCommand_key (c : Word) (s : State) : (placeCommand c s).key = s.key := rfl
@[simp] theorem placeCommand_iv (c : Word) (s : State) : (placeCommand c s).iv = s.iv := rfl
@[simp] theorem placeCommand_din (c : Word) (s : State) : (placeCommand c s).din = s.din := rfl
@[simp] theorem placeCommand_dout (c : Word) (s : State) : (placeCommand c s).dout = s.dout := rfl
@[simp] theorem placeCommand_src (c : Word) (s : State) : (placeCommand c s).src = s.src := rfl
@[simp] theorem placeCommand_dst (c : Word) (s : State) : (placeCommand c s).dst = s.dst := rfl
@[simp] theorem placeCommand_len (c : Word) (s : State) : (placeCommand c s).len = s.len := rfl
@[simp] theorem placeCommand_rk (c : Word) (s : State) : (placeCommand c s).rk = s.rk := rfl
@[simp] theorem placeCommand_seq (c : Word) (s : State) : (placeCommand c s).seq = .idle := rfl
@[simp] theorem placeCommand_mem (c : Word) (s : State) : (placeCommand c s).mem = s.mem := rfl
@[simp] theorem placeCommand_platform (c : Word) (s : State) : (placeCommand c s).platform = s.platform := rfl
@[simp] theorem placeCommand_moves (c : Word) (s : State) : (placeCommand c s).moves = cmdWrite s.platform c :: s.moves := rfl
@[simp] theorem placeCommand_lastRead (c : Word) (s : State) : (placeCommand c s).lastRead = s.lastRead := rfl
@[simp] theorem placeCommand_lastMemRead (c : Word) (s : State) : (placeCommand c s).lastMemRead = s.lastMemRead := rfl
@[simp] theorem placeCommand_draws (c : Word) (s : State) : (placeCommand c s).draws = s.draws := rfl

/-! ### `resetCore` -/

@[simp] theorem resetCore_cmd (s : State) : (resetCore s).cmd = State.reset.cmd := rfl
@[simp] theorem resetCore_done (s : State) : (resetCore s).done = State.reset.done := rfl
@[simp] theorem resetCore_wign (s : State) : (resetCore s).wign = State.reset.wign := rfl
@[simp] theorem resetCore_errCode (s : State) : (resetCore s).errCode = State.reset.errCode := rfl
@[simp] theorem resetCore_ksSize (s : State) : (resetCore s).ksSize = State.reset.ksSize := rfl
@[simp] theorem resetCore_blkCnt (s : State) : (resetCore s).blkCnt = State.reset.blkCnt := rfl
@[simp] theorem resetCore_key (s : State) : (resetCore s).key = State.reset.key := rfl
@[simp] theorem resetCore_iv (s : State) : (resetCore s).iv = State.reset.iv := rfl
@[simp] theorem resetCore_din (s : State) : (resetCore s).din = State.reset.din := rfl
@[simp] theorem resetCore_dout (s : State) : (resetCore s).dout = State.reset.dout := rfl
@[simp] theorem resetCore_src (s : State) : (resetCore s).src = State.reset.src := rfl
@[simp] theorem resetCore_dst (s : State) : (resetCore s).dst = State.reset.dst := rfl
@[simp] theorem resetCore_len (s : State) : (resetCore s).len = State.reset.len := rfl
@[simp] theorem resetCore_rk (s : State) : (resetCore s).rk = State.reset.rk := rfl
@[simp] theorem resetCore_seq (s : State) : (resetCore s).seq = State.reset.seq := rfl
@[simp] theorem resetCore_mem (s : State) : (resetCore s).mem = s.mem := rfl
@[simp] theorem resetCore_platform (s : State) : (resetCore s).platform = s.platform := rfl
@[simp] theorem resetCore_moves (s : State) : (resetCore s).moves = s.moves := rfl
@[simp] theorem resetCore_lastRead (s : State) : (resetCore s).lastRead = s.lastRead := rfl
@[simp] theorem resetCore_lastMemRead (s : State) : (resetCore s).lastMemRead = s.lastMemRead := rfl
@[simp] theorem resetCore_draws (s : State) : (resetCore s).draws = s.draws := rfl

/-! ### `busy` as a view of `seq` -/

theorem busy_idle {s : State} (h : s.seq = .idle) : s.busy = false := by simp [State.busy, h]

theorem busy_run {s : State} {r : Run} (h : s.seq = .run r) : s.busy = true := by simp [State.busy, h]

theorem busy_eq_false_iff (s : State) : s.busy = false ↔ s.seq = .idle := by
  cases h : s.seq <;> simp [State.busy, h]

theorem busy_eq_true_iff (s : State) : s.busy = true ↔ ∃ r, s.seq = .run r := by
  cases h : s.seq <;> simp [State.busy, h]

end Sys2Proof.Machine
end

