-- ==== Sys2Proof/Laws/Ops.lean ====
section
/-! SUPPORT. What the shared operations can do, once: the proofs cite these and do not unfold the operations. -/

namespace Sys2Proof.Machine

/-! ### Key sizes and commands -/

@[simp] theorem keySizeOf_bits (k : KeySize) : keySizeOf k.bits = some k := by cases k <;> decide

theorem keySizeOf_eq_some {kb : KeyBits} {k : KeySize} (h : keySizeOf kb = some k) : kb = k.bits := by
  unfold keySizeOf at h
  repeat' split at h
  all_goals cases h
  all_goals assumption

theorem keySizeOf_eq_none_iff (kb : KeyBits) : keySizeOf kb = none ↔ legalKeyBits kb = false := by
  unfold keySizeOf legalKeyBits
  repeat' split
  all_goals simp_all

theorem bits_injective {k k' : KeySize} (h : k.bits = k'.bits) : k = k' := by
  have := congrArg keySizeOf h
  simpa using this

@[simp] theorem op_instr (op : Op) (kb : KeyBits) : (op.instr kb).op = op := by cases op <;> rfl

@[simp] theorem keyBits_instr (op : Op) (kb : KeyBits) : (op.instr kb).keyBits = kb := by cases op <;> rfl

@[simp] theorem instr_op_keyBits (i : Instr) : i.op.instr i.keyBits = i := by cases i <;> rfl

/-! ### `exec` by operation -/

/-- The submission checks beyond 1 and 2 that an operation has (R202). -/
def checksOf : Op → KeySize → State → Option ErrorCode
  | .expand => checkNothing
  | .encb => checkSchedule
  | .decb => checkSchedule
  | .cbce => checkMessage
  | .cbcd => checkMessage
  | .ctr => checkMessage

/-- The sequencer steps an operation has (R175). -/
def sequenceOf : Op → Run → State → Answer
  | .expand => expandSequence
  | .encb => singleBlockSequence cipher
  | .decb => singleBlockSequence invCipher
  | .cbce => modeSequence cbceBlock
  | .cbcd => modeSequence cbcdBlock
  | .ctr => modeSequence ctrBlock

/-- Every meaning is `perform` with its operation's checks and steps. -/
theorem exec_eq_perform (i : Instr) (s : State) :
    exec i s = perform i.op i.keyBits (checksOf i.op) (sequenceOf i.op) s := by
  cases i <;> rfl

/-- While Idle, a command's transition is its submission. -/
theorem exec_idle {i : Instr} {s : State} (h : s.seq = .idle) :
    exec i s = .next (submit i.op i.keyBits (checksOf i.op) s) := by
  rw [exec_eq_perform, perform, h]

/-- While the command runs, its transition is its sequencer step. -/
theorem exec_running {r : Run} {s : State} (h : s.seq = .run r) : exec r.instr s = sequenceOf r.op r s := by
  rw [exec_eq_perform, perform, h]
  simp [Run.instr]

/-- While another command runs, a submission is ignored. -/
theorem exec_other {i : Instr} {r : Run} {s : State} (h : s.seq = .run r) (hne : r.instr ≠ i) :
    exec i s = .next (ignoreWrite s) := by
  rw [exec_eq_perform, perform, h]
  refine if_neg fun hc => hne ?_
  rw [Run.instr, hc.1, hc.2, instr_op_keyBits]

/-! ### Submission -/

/-- What a submission can be: a rejection for the key size, a rejection by a further check, or acceptance. -/
theorem submit_cases (op : Op) (kb : KeyBits) (check : KeySize → State → Option ErrorCode) (s : State) :
    (keySizeOf kb = none ∧ submit op kb check s = raiseError .invalidKeySize s) ∨
    (∃ k e, keySizeOf kb = some k ∧ check k s = some e ∧ submit op kb check s = raiseError e s) ∨
    (∃ k, keySizeOf kb = some k ∧ check k s = none ∧ submit op kb check s = accept op k s) := by
  unfold submit
  cases hk : keySizeOf kb with
  | none => exact .inl ⟨rfl, rfl⟩
  | some k =>
    cases hc : check k s with
    | some e => exact .inr (.inl ⟨k, e, rfl, hc, by simp [hc]⟩)
    | none => exact .inr (.inr ⟨k, rfl, hc, by simp [hc]⟩)

theorem submit_badSize {op : Op} {kb : KeyBits} {check : KeySize → State → Option ErrorCode} {s : State}
    (h : keySizeOf kb = none) : submit op kb check s = raiseError .invalidKeySize s := by
  simp [submit, h]

theorem submit_rejected {op : Op} {k : KeySize} {check : KeySize → State → Option ErrorCode} {s : State} {e : ErrorCode}
    (h : check k s = some e) : submit op k.bits check s = raiseError e s := by
  simp [submit, h]

theorem submit_accepted {op : Op} {k : KeySize} {check : KeySize → State → Option ErrorCode} {s : State}
    (h : check k s = none) : submit op k.bits check s = accept op k s := by
  simp [submit, h]

/-- A message that passes its checks: whole blocks, and no address past the top of memory. -/
theorem checkMessage_none {k : KeySize} {s : State} (h : checkMessage k s = none) :
    s.len.toNat % 16 = 0 ∧
    (0 < s.len.toNat → s.src.toNat + s.len.toNat ≤ 2 ^ 32 ∧ s.dst.toNat + s.len.toNat ≤ 2 ^ 32) ∧
    (0 < s.len.toNat → s.src = s.dst ∨ s.src.toNat + s.len.toNat ≤ s.dst.toNat ∨
      s.dst.toNat + s.len.toNat ≤ s.src.toNat) := by
  unfold checkMessage at h
  split at h
  · cases h
  · rename_i h1
    split at h
    · cases h
    · rename_i h2
      split at h
      · cases h
      · rename_i h3
        refine ⟨by omega, fun hp => by omega, fun hp => ?_⟩
        by_cases he : s.src = s.dst
        · exact .inl he
        · have h4 : ¬ max s.src.toNat s.dst.toNat < min s.src.toNat s.dst.toNat + s.len.toNat :=
            fun hm => h3 ⟨hp, he, hm⟩
          right
          omega

/-- The codes the further checks give are rejections (R201). -/
theorem checksOf_code {op : Op} {k : KeySize} {s : State} {e : ErrorCode} (h : checksOf op k s = some e) :
    e = .scheduleMismatch ∨ e = .invalidInputLength ∨ e = .addressRange ∨ e = .overlapError := by
  cases op <;> simp only [checksOf, checkNothing, checkSchedule, checkMessage] at h <;>
    (repeat' split at h) <;> simp_all

/-! ### Memory bounds and the block step -/

theorem insideMemory_iff (a n : Nat) : insideMemory a n = true ↔ a + n ≤ memorySize := decide_eq_true_iff

/-- What a mode block step can do: stop outside memory, end in BusError, or finish the block. -/
theorem modeBlockStep_cases (f : List Word → Nat → Block → Block → BlockResult) (r : Run) (i : Nat) (s : State) :
    (modeBlockStep f r i s = .fault .addressOutsideMemory ∧
      ¬ (blockAddress r.src i + 16 ≤ memorySize ∧ blockAddress r.dst i + 16 ≤ memorySize)) ∨
    (modeBlockStep f r i s = .next (raiseError .busError s) ∧
      (memOk s.platform .read (blockAddress r.src i) = false ∨ memOk s.platform .write (blockAddress r.dst i) = false)) ∨
    (modeBlockStep f r i s = .next (finishBlock (blockResult f r i s) r i s) ∧
      blockAddress r.src i + 16 ≤ memorySize ∧ blockAddress r.dst i + 16 ≤ memorySize ∧
      memOk s.platform .read (blockAddress r.src i) = true ∧ memOk s.platform .write (blockAddress r.dst i) = true) := by
  unfold modeBlockStep insideMemory
  split
  · rename_i h
    have h : memorySize < blockAddress r.src i + 16 ∨ memorySize < blockAddress r.dst i + 16 := by simpa using h
    exact .inl ⟨rfl, by omega⟩
  · rename_i h
    have h : blockAddress r.src i + 16 ≤ memorySize ∧ blockAddress r.dst i + 16 ≤ memorySize := by simpa using h
    split
    · rename_i h2
      exact .inr (.inl ⟨rfl, .inl (by simpa using h2)⟩)
    · rename_i h2
      split
      · rename_i h3
        exact .inr (.inl ⟨rfl, .inr (by simpa using h3)⟩)
      · rename_i h3
        exact .inr (.inr ⟨rfl, h.1, h.2, by simpa using h2, by simpa using h3⟩)

/-- A block step whose addresses exist and whose requests are admitted finishes its block. -/
theorem modeBlockStep_done {f : List Word → Nat → Block → Block → BlockResult} {r : Run} {i : Nat} {s : State}
    (h1 : blockAddress r.src i + 16 ≤ memorySize) (h2 : blockAddress r.dst i + 16 ≤ memorySize)
    (h3 : memOk s.platform .read (blockAddress r.src i) = true)
    (h4 : memOk s.platform .write (blockAddress r.dst i) = true) :
    modeBlockStep f r i s = .next (finishBlock (blockResult f r i s) r i s) := by
  simp [modeBlockStep, insideMemory, h1, h2, h3, h4]

/-- A block step with a refused request ends in BusError. -/
theorem modeBlockStep_refused {f : List Word → Nat → Block → Block → BlockResult} {r : Run} {i : Nat} {s : State}
    (h1 : blockAddress r.src i + 16 ≤ memorySize) (h2 : blockAddress r.dst i + 16 ≤ memorySize)
    (h : memOk s.platform .read (blockAddress r.src i) = false ∨
      memOk s.platform .write (blockAddress r.dst i) = false) :
    modeBlockStep f r i s = .next (raiseError .busError s) := by
  rcases h with h | h <;> simp [modeBlockStep, insideMemory, h1, h2, h]

/-! ### The sequencer's step -/

/-- What the sequencer's step of a running command can do when it answers a next state: the key expansion, the single block step, a
mode block step that ends in BusError or finishes its block, or completion. -/
theorem sequence_cases {r : Run} {s t : State} (h : sequenceOf r.op r s = .next t) :
    (r.phase = .expand ∧ buildsSchedule r.op = true ∧ t = expandPhase r s) ∨
    (r.phase = .block 0 ∧ (r.op = .encb ∨ r.op = .decb) ∧ ∃ f, t = singleBlockStep f r s) ∨
    (∃ i f, r.phase = .block i ∧ BlockFunction r.op f ∧
      ((t = raiseError .busError s ∧ (memOk s.platform .read (blockAddress r.src i) = false ∨
          memOk s.platform .write (blockAddress r.dst i) = false)) ∨
        (t = finishBlock (blockResult f r i s) r i s ∧ blockAddress r.src i + 16 ≤ memorySize ∧
          blockAddress r.dst i + 16 ≤ memorySize))) ∨
    (r.phase = .finish ∧ t = complete s) := by
  have key : ∀ f i, BlockFunction r.op f → modeBlockStep f r i s = .next t →
      BlockFunction r.op f ∧
        ((t = raiseError .busError s ∧ (memOk s.platform .read (blockAddress r.src i) = false ∨
            memOk s.platform .write (blockAddress r.dst i) = false)) ∨
          (t = finishBlock (blockResult f r i s) r i s ∧ blockAddress r.src i + 16 ≤ memorySize ∧
            blockAddress r.dst i + 16 ≤ memorySize)) := by
    intro f i hf h
    refine ⟨hf, ?_⟩
    rcases modeBlockStep_cases f r i s with ⟨h', -⟩ | ⟨h', h2⟩ | ⟨h', h2, h3, -⟩
    · rw [h'] at h
      cases h
    · rw [h'] at h
      cases h
      exact .inl ⟨rfl, h2⟩
    · rw [h'] at h
      cases h
      exact .inr ⟨rfl, h2, h3⟩
  cases hp : r.phase with
  | expand =>
    cases ho : r.op <;>
      simp [sequenceOf, ho, expandSequence, singleBlockSequence, modeSequence, hp, buildsSchedule] at h ⊢ <;> exact h.symm
  | finish =>
    cases ho : r.op <;>
      simp [sequenceOf, ho, expandSequence, singleBlockSequence, modeSequence, hp, buildsSchedule] at h ⊢ <;> exact h.symm
  | block i =>
    cases ho : r.op <;> simp only [sequenceOf, ho, expandSequence, modeSequence, hp] at h
    · cases h
    · cases i with
      | zero =>
        simp only [singleBlockSequence, hp] at h
        cases h
        exact .inr (.inl ⟨rfl, .inl rfl, _, rfl⟩)
      | succ i => simp [singleBlockSequence, hp] at h
    · cases i with
      | zero =>
        simp only [singleBlockSequence, hp] at h
        cases h
        exact .inr (.inl ⟨rfl, .inr rfl, _, rfl⟩)
      | succ i => simp [singleBlockSequence, hp] at h
    · rw [← ho]
      exact .inr (.inr (.inl ⟨i, _, rfl, key _ i (ho ▸ .cbce) h⟩))
    · rw [← ho]
      exact .inr (.inr (.inl ⟨i, _, rfl, key _ i (ho ▸ .cbcd) h⟩))
    · rw [← ho]
      exact .inr (.inr (.inl ⟨i, _, rfl, key _ i (ho ▸ .ctr) h⟩))

/-- What `exec` can do when it answers a next state: reject or accept a submission, take the running command's sequencer step, or
ignore a submission because another command runs. -/
theorem exec_cases {i : Instr} {s t : State} (h : exec i s = .next t) :
    (s.seq = .idle ∧ ((∃ e, t = raiseError e s) ∨ ∃ k, t = accept i.op k s)) ∨
    (∃ r, s.seq = .run r ∧ r.instr = i ∧ sequenceOf r.op r s = .next t) ∨
    (∃ r, s.seq = .run r ∧ r.instr ≠ i ∧ t = ignoreWrite s) := by
  cases hs : s.seq with
  | idle =>
    rw [exec_idle hs] at h
    cases h
    refine .inl ⟨rfl, ?_⟩
    rcases submit_cases i.op i.keyBits (checksOf i.op) s with ⟨_, h⟩ | ⟨k, e, _, _, h⟩ | ⟨k, _, _, h⟩
    · exact .inl ⟨_, h⟩
    · exact .inl ⟨_, h⟩
    · exact .inr ⟨k, h⟩
  | run r =>
    by_cases hi : r.instr = i
    · subst hi
      rw [exec_running hs] at h
      exact .inr (.inl ⟨r, rfl, rfl, h⟩)
    · rw [exec_other hs hi] at h
      cases h
      exact .inr (.inr ⟨r, rfl, hi, rfl⟩)

end Sys2Proof.Machine
end

