-- ==== Sys2Proof/Laws/PerInstr.lean ====
section
/-! SUPPORT. Statements made for each command: what the fields of its word read as (30_encoding.md rule R81). -/

namespace Sys2Proof.Laws

/-- The three fields of a command's word: its operation, zero, and the KEYBITS it was given. -/
def EncodedFields.Statement (i : Instr) : Prop :=
  opField (encode i) = i.op.code ∧ rsvdField (encode i) = 0 ∧ keyBitsField (encode i) = i.keyBits

/-- The fields of three numbers put side by side. -/
theorem fields_of_append (kb : KeyBits) (c : BitVec 4) :
    opField (kb ++ (0 : BitVec 12) ++ c) = c ∧ rsvdField (kb ++ (0 : BitVec 12) ++ c) = 0 ∧
      keyBitsField (kb ++ (0 : BitVec 12) ++ c) = kb := by
  refine ⟨?_, ?_, ?_⟩ <;>
    (apply BitVec.eq_of_getLsbD_eq
     intro j hj
     simp only [rsvdField, opField, keyBitsField, BitVec.getLsbD_extractLsb', BitVec.getLsbD_append, hj, decide_true,
       Bool.true_and]
     repeat' split
     all_goals first
       | omega
       | simp
       | (congr 1; omega))

theorem EncodedFields.expand (kb : KeyBits) : EncodedFields.Statement (.expand kb) := fields_of_append kb _

theorem EncodedFields.encb (kb : KeyBits) : EncodedFields.Statement (.encb kb) := fields_of_append kb _

theorem EncodedFields.decb (kb : KeyBits) : EncodedFields.Statement (.decb kb) := fields_of_append kb _

theorem EncodedFields.cbce (kb : KeyBits) : EncodedFields.Statement (.cbce kb) := fields_of_append kb _

theorem EncodedFields.cbcd (kb : KeyBits) : EncodedFields.Statement (.cbcd kb) := fields_of_append kb _

theorem EncodedFields.ctr (kb : KeyBits) : EncodedFields.Statement (.ctr kb) := fields_of_append kb _

end Sys2Proof.Laws
end

