-- ==== Sys2Proof/Laws/Step.lean ====
section
/-! SUPPORT. What one step can do: which move it takes, what the sequencer's turn does, what a host access reaches. -/

namespace Sys2Proof.Machine

theorem step_nil {s : State} (h : s.moves = []) : step s = sequencerTurn s := by rw [step, h]

theorem step_cons {s : State} {m : Move} {rest : List Move} (h : s.moves = m :: rest) :
    step s = takeMove m { s with moves := rest } := by rw [step, h]

theorem sequencerTurn_idle {s : State} (h : s.seq = .idle) : sequencerTurn s = .next s := by rw [sequencerTurn, h]

theorem sequencerTurn_run {s : State} {r : Run} (h : s.seq = .run r) : sequencerTurn s = sequenceOf r.op r s := by
  rw [sequencerTurn, h]
  exact exec_running h

/-- On its turn, given by a move, the sequencer takes the running command's step (R175). -/
theorem step_turnGiven {s : State} {r : Run} {rest : List Move} (h : s.moves = .sequencer :: rest) (hs : s.seq = .run r) :
    step s = sequenceOf r.op r { s with moves := rest } := by
  rw [step_cons h]
  exact sequencerTurn_run (s := { s with moves := rest }) hs

/-- On its turn, with no move left, the sequencer takes the running command's step (R175). -/
theorem step_turn {s : State} {r : Run} (h : s.moves = []) (hs : s.seq = .run r) : step s = sequenceOf r.op r s := by
  rw [step_nil h, sequencerTurn_run hs]

/-- One step of the machine with no move left and nothing to run leaves the state as it is. -/
theorem step_idle {s : State} (h : s.moves = []) (hi : s.seq = .idle) : step s = .next s := by
  rw [step_nil h, sequencerTurn_idle hi]

/-! ### `runSteps` -/

@[simp] theorem runSteps_zero (s : State) : runSteps 0 s = .next s := rfl

theorem runSteps_succ {s t : State} (h : step s = .next t) (k : Nat) : runSteps (k + 1) s = runSteps k t := by
  have h : core.step s = .next t := h
  simp only [runSteps, Host.Core.run, h]
  rfl

/-- A run of at least one step that answers a state took a first step. -/
theorem runSteps_succ_next {s t : State} {k : Nat} (h : runSteps (k + 1) s = .next t) :
    ∃ s', step s = .next s' ∧ runSteps k s' = .next t := by
  simp only [runSteps, Host.Core.run] at h
  cases hs : core.step s with
  | next s' => rw [hs] at h; exact ⟨s', hs, h⟩
  | fault r => rw [hs] at h; cases h
  | refused r => rw [hs] at h; cases h

theorem runSteps_add {s t : State} {k : Nat} (h : runSteps k s = .next t) (l : Nat) :
    runSteps (k + l) s = runSteps l t := by
  induction k generalizing s with
  | zero =>
    cases h
    rw [Nat.zero_add]
  | succ k ih =>
    obtain ⟨s', hs, h⟩ := runSteps_succ_next h
    rw [Nat.add_right_comm, runSteps_succ hs]
    exact ih h

/-! ### The register window -/

/-- The host's access at `CORE_BASE + off` reaches the register at that offset. -/
@[simp] theorem windowReg_offset (p : Platform) (off : Nat) : windowReg p (p.coreBase + off) 4 = regAt off := by
  rw [windowReg, if_pos ⟨rfl, Nat.le_add_right _ _⟩, Nat.add_sub_cancel_left]

@[simp] theorem regAt_cmd : regAt 0x004 = some .cmd := by decide

@[simp] theorem regAt_status : regAt 0x008 = some .status := by decide

/-- An access that reaches a register is 32 bits wide, at that register's offset from `CORE_BASE`. -/
theorem windowReg_eq_some {p : Platform} {addr size : Nat} {r : Reg} (h : windowReg p addr size = some r) :
    ∃ off, size = 4 ∧ addr = p.coreBase + off ∧ regAt off = some r := by
  unfold windowReg at h
  split at h
  · rename_i hc
    exact ⟨addr - p.coreBase, hc.1, by omega, h⟩
  · cases h

/-- The host's write of a register by its offset, as a step. -/
theorem step_hostWrite {s : State} {off : Nat} {v : Word} {r : Reg} {rest : List Move}
    (h : s.moves = hostWrite s.platform off v :: rest) (hr : regAt off = some r) :
    step s = writeReg r v { s with moves := rest } := by
  rw [step_cons h]
  show (match windowReg s.platform (s.platform.coreBase + off) 4 with
    | some r => writeReg r v { s with moves := rest }
    | none => .refused .hostAccessOutsideInterface) = _
  rw [windowReg_offset, hr]

/-- The host's write of a command word, as a step. -/
theorem step_cmdWrite {s : State} {c : Word} {rest : List Move} (h : s.moves = cmdWrite s.platform c :: rest) :
    step s = writeReg .cmd c { s with moves := rest } := by
  exact step_hostWrite (off := 0x004) h regAt_cmd

/-- While Idle, the write stores the word and submits it (R170). -/
theorem step_submit {s : State} {c : Word} {rest : List Move} (h : s.moves = cmdWrite s.platform c :: rest)
    (hi : s.seq = .idle) : step s = submitWord c { s with cmd := c, moves := rest } := by
  rw [step_cmdWrite h]
  simp [writeReg, unlessBusy, State.busy, hi]

theorem submitWord_ok {c : Word} {i : Instr} (h : decodeInstr c = .ok i) (s : State) : submitWord c s = exec i s := by
  rw [submitWord, h]

/-- A register read: a draw or an exact value, and no register changes (R41, R42). -/
theorem readReg_cases (r : Reg) (s : State) :
    (s.busy = true ∧ r.volatile = true ∧
      readReg r s = { s with lastRead := Config.freeWord s.draws, draws := s.draws + 1 }) ∨
    ((s.busy = false ∨ r.volatile = false) ∧ readReg r s = { s with lastRead := regValue s r }) := by
  unfold readReg
  cases s.busy <;> cases r.volatile <;> simp

/-- A register write never stops the machine, except through the submission of a command. -/
theorem writeReg_not_cmd {r : Reg} (hr : r ≠ .cmd) (v : Word) (s : State) : ∃ t, writeReg r v s = .next t := by
  cases r <;> simp only [writeReg, unlessBusy] <;> first | exact absurd rfl hr | (try split) <;> exact ⟨_, rfl⟩

/-! ### What a step can do -/

/-- Every next state of the sequencer's turn. -/
inductive TurnTo (s : State) : State → Prop where
  | idle : s.seq = .idle → TurnTo s s
  | run (r : Run) (t : State) : s.seq = .run r → sequenceOf r.op r s = .next t → TurnTo s t

/-- Every next state of a register write. -/
inductive WriteTo (s : State) : Reg → Word → State → Prop where
  | readOnly (r : Reg) (v : Word) : WriteTo s r v s
  | status (v : Word) : WriteTo s .status v (writeStatus v s)
  | ignored (r : Reg) (v : Word) : s.busy = true → WriteTo s r v (ignoreWrite s)
  | key (i : Fin 8) (v : Word) : s.seq = .idle → WriteTo s (.key i) v { s with key := s.key.set i v }
  | iv (i : Fin 4) (v : Word) : s.seq = .idle → WriteTo s (.iv i) v { s with iv := s.iv.set i v }
  | din (i : Fin 4) (v : Word) : s.seq = .idle → WriteTo s (.din i) v { s with din := s.din.set i v }
  | src (v : Word) : s.seq = .idle → WriteTo s .src v { s with src := v }
  | dst (v : Word) : s.seq = .idle → WriteTo s .dst v { s with dst := v }
  | len (v : Word) : s.seq = .idle → WriteTo s .len v { s with len := v }
  | badCommand (c : Word) (e : DecodeReject) : s.seq = .idle → decodeInstr c = .error e →
      WriteTo s .cmd c (raiseError .invalidCommand { s with cmd := c })
  | command (c : Word) (i : Instr) : s.seq = .idle → decodeInstr c = .ok i →
      WriteTo s .cmd c (submit i.op i.keyBits (checksOf i.op) { s with cmd := c })

theorem writeReg_cases {r : Reg} {v : Word} {s t : State} (h : writeReg r v s = .next t) : WriteTo s r v t := by
  have key : ∀ {a : Answer}, unlessBusy s a = .next t →
      (s.busy = true ∧ t = ignoreWrite s) ∨ (s.seq = .idle ∧ a = .next t) := by
    intro a ha
    unfold unlessBusy at ha
    split at ha
    · cases ha
      exact .inl ⟨‹_›, rfl⟩
    · rename_i hb
      exact .inr ⟨(busy_eq_false_iff s).1 (by simpa using hb), ha⟩
  cases r <;> simp only [writeReg] at h
  case cmd =>
    rcases key h with ⟨hb, rfl⟩ | ⟨hi, h⟩
    · exact .ignored _ _ hb
    · unfold submitWord at h
      split at h
      · rename_i i hd
        rw [exec_idle (s := { s with cmd := v }) hi] at h
        cases h
        exact .command v i hi hd
      · rename_i e hd
        cases h
        exact .badCommand v e hi hd
  case status =>
    cases h
    exact .status v
  case key =>
    rcases key h with ⟨hb, rfl⟩ | ⟨hi, h⟩
    · exact .ignored _ _ hb
    · cases h
      exact .key _ _ hi
  case iv =>
    rcases key h with ⟨hb, rfl⟩ | ⟨hi, h⟩
    · exact .ignored _ _ hb
    · cases h
      exact .iv _ _ hi
  case din =>
    rcases key h with ⟨hb, rfl⟩ | ⟨hi, h⟩
    · exact .ignored _ _ hb
    · cases h
      exact .din _ _ hi
  case src =>
    rcases key h with ⟨hb, rfl⟩ | ⟨hi, h⟩
    · exact .ignored _ _ hb
    · cases h
      exact .src _ hi
  case dst =>
    rcases key h with ⟨hb, rfl⟩ | ⟨hi, h⟩
    · exact .ignored _ _ hb
    · cases h
      exact .dst _ hi
  case len =>
    rcases key h with ⟨hb, rfl⟩ | ⟨hi, h⟩
    · exact .ignored _ _ hb
    · cases h
      exact .len _ hi
  all_goals
    cases h
    exact .readOnly _ _

/-- Every next state of a step, with the move that led to it. -/
inductive StepTo (s : State) : State → Prop where
  | turn (t : State) : s.moves = [] → TurnTo s t → StepTo s t
  | turnGiven (rest : List Move) (t : State) : s.moves = .sequencer :: rest → TurnTo { s with moves := rest } t →
      StepTo s t
  | regRead (addr size : Nat) (r : Reg) (rest : List Move) : s.moves = .regRead addr size :: rest →
      windowReg s.platform addr size = some r → StepTo s (readReg r { s with moves := rest })
  | regWrite (addr size : Nat) (v : Word) (r : Reg) (rest : List Move) (t : State) :
      s.moves = .regWrite addr size v :: rest → windowReg s.platform addr size = some r →
      WriteTo { s with moves := rest } r v t → StepTo s t
  | memRead (a n : Nat) (rest : List Move) (bytes : List Byte) : s.moves = .memRead a n :: rest →
      StepTo s { s with moves := rest, lastMemRead := bytes, draws := s.draws + n }
  | memWrite (a : Nat) (bytes : List Byte) (rest : List Move) : s.moves = .memWrite a bytes :: rest →
      a + bytes.length ≤ memorySize → StepTo s { s with moves := rest, mem := s.mem.writeBytes a bytes }
  | reset (rest : List Move) : s.moves = .reset :: rest → StepTo s (resetCore { s with moves := rest })
  | setRefused (ranges : List RefusedRange) (rest : List Move) : s.moves = .setRefused ranges :: rest →
      StepTo s { s with moves := rest, platform := { s.platform with refused := ranges } }

theorem sequencerTurn_cases {s t : State} (h : sequencerTurn s = .next t) : TurnTo s t := by
  cases hs : s.seq with
  | idle =>
    rw [sequencerTurn_idle hs] at h
    cases h
    exact .idle hs
  | run r =>
    rw [sequencerTurn_run hs] at h
    exact .run r t hs h

/-- A step that answers a next state did one of these things. -/
theorem step_cases {s t : State} (h : step s = .next t) : StepTo s t := by
  cases hm : s.moves with
  | nil =>
    rw [step_nil hm] at h
    exact .turn t hm (sequencerTurn_cases h)
  | cons m rest =>
    rw [step_cons hm] at h
    cases m with
    | regRead addr size =>
      simp only [takeMove] at h
      split at h
      · cases h
        exact .regRead addr size _ rest hm ‹_›
      · cases h
    | regWrite addr size v =>
      simp only [takeMove] at h
      split at h
      · exact .regWrite addr size v _ rest t hm ‹_› (writeReg_cases h)
      · cases h
    | memRead a n =>
      simp only [takeMove, readMemory] at h
      split at h
      · cases h
        exact .memRead a n rest _ hm
      · cases h
    | memWrite a bytes =>
      simp only [takeMove, writeMemory] at h
      split at h
      · cases h
      · rename_i hin
        split at h
        · cases h
        · cases h
          exact .memWrite a bytes rest hm (by simpa [insideMemory] using hin)
    | reset =>
      simp only [takeMove] at h
      cases h
      exact .reset rest hm
    | setRefused ranges =>
      simp only [takeMove] at h
      cases h
      exact .setRefused ranges rest hm
    | sequencer => exact .turnGiven rest t hm (sequencerTurn_cases h)

end Sys2Proof.Machine
end

