-- ==== Sys2Proof/Tests/Slice0.lean ====
section
/-! SUPPORT. Tests of the model: ill-formed commands refused, words and values the spec writes out, and for every statement with
hypotheses a state and operands that meet them. Expected values are spec/'s (30_encoding.md rule R88 and the examples of the rules and of
95_test_vectors.md), never the model's own answers. -/

namespace Sys2Proof.Tests

open Sys2Proof.Machine

/-! ### WellFormed (R82): a value between two legal ones, one bit off, and the ends of the field -/

theorem test_illFormed_zero : (Instr.expand 0).wellFormed = false := by decide
theorem test_illFormed_hundred : (Instr.encb 100).wellFormed = false := by decide
theorem test_illFormed_below : (Instr.decb 127).wellFormed = false := by decide
theorem test_illFormed_above : (Instr.cbce 257).wellFormed = false := by decide
theorem test_illFormed_384 : (Instr.cbcd 384).wellFormed = false := by decide
theorem test_illFormed_top : (Instr.ctr 0xFFFF).wellFormed = false := by decide
theorem test_illFormed_refused : decode (encode (.ctr 0xFFFF)) = .error .invalidKeySize := by decide

/-! ### Decoding (R81, R83, R88): KEYBITS, twelve zeros, OP, written out bit by bit -/

theorem test_word_expand : decode 0b00000000100000000000000000000001 = .ok (.expand 128) := by decide
theorem test_word_encb : decode 0b00000000110000000000000000000010 = .ok (.encb 192) := by decide
theorem test_word_decb : decode 0b00000001000000000000000000000011 = .ok (.decb 256) := by decide
theorem test_word_cbce : decode 0b00000000100000000000000000000100 = .ok (.cbce 128) := by decide
theorem test_word_cbcd : decode 0b00000000110000000000000000000101 = .ok (.cbcd 192) := by decide
theorem test_word_ctr : decode 0b00000001000000000000000000000110 = .ok (.ctr 256) := by decide
theorem test_word_op7 : decode 0x00800007 = .error .invalidCommand := by decide
theorem test_word_op15 : decode 0x0080000F = .error .invalidCommand := by decide
theorem test_word_rsvd : decode 0x00808001 = .error .invalidCommand := by decide
theorem test_word_encoded : encode (.cbcd 192) = 0x00C00005 := by decide
theorem test_word_table : decodeTableWord 32 0x00640001 = some (.expand 100) := by decide

/-! ### Small states -/

/-- Whether a step answered a next state in which `p` holds. -/
def reaches (a : Answer) (p : State → Bool) : Bool :=
  match a with
  | .next t => p t
  | .fault _ => false
  | .refused _ => false

/-- The key K2 of 95_test_vectors.md section 2.2, `00010203 04050607 08090a0b 0c0d0e0f`. -/
def keyK2 : Vector Word 8 := #v[0x00010203, 0x04050607, 0x08090a0b, 0x0c0d0e0f, 0, 0, 0, 0]

/-- The key K1, `2b7e1516 28aed2a6 abf71588 09cf4f3c`. -/
def keyK1 : Vector Word 8 := #v[0x2b7e1516, 0x28aed2a6, 0xabf71588, 0x09cf4f3c, 0, 0, 0, 0]

/-- A run of `op` with a 128-bit key. -/
def runOf (op : Op) (phase : Phase) (src dst : Word) (nblk : Nat) : Run :=
  { op := op, kb := .k128, phase := phase, src := src, dst := dst, nblk := nblk, work := none, lastIn := none }

/-- The state in which `r` runs with the schedule of `key` built, its operands in the registers. -/
def running (r : Run) (key : Vector Word 8) : State :=
  { State.reset with
    cmd := encode r.instr
    key := key
    rk := roundKeyStore key r.kb
    ksSize := some r.kb
    src := r.src
    dst := r.dst
    len := BitVec.ofNat 32 (16 * r.nblk)
    seq := .run r }

/-- The state after reset with a command word about to be written. -/
def writing (c : Word) : State := { State.reset with moves := [cmdWrite State.reset.platform c] }

/-- As `writing`, with one block at 0x1000 to process into 0x2000. -/
def oneBlock (c : Word) : State := { writing c with src := 0x1000, dst := 0x2000, len := 16 }

/-! ### EXPAND (R127; 95_test_vectors.md section 2.2) -/

theorem test_expand_round_keys :
    reaches (exec (.expand 128) { running (runOf .expand .expand 0 0 0) keyK1 with rk := Vector.replicate 60 7 }) (fun t =>
      t.rk[4] == 0xa0fafe17 && t.rk[40] == 0xd014f9a8 && t.rk[43] == 0xb6630ca6 && t.rk[44] == 0 && t.rk[59] == 0) = true := by
  decide +kernel

theorem test_expand_last_256_bit_word :
    (roundKeyStore #v[0x603deb10, 0x15ca71be, 0x2b73aef0, 0x857d7781, 0x1f352c07, 0x3b6108d7, 0x2d9810a3, 0x0914dff4]
      .k256)[59] = 0x706c631e := by
  decide +kernel

/-! ### AddRoundKey (the example of R141) -/

theorem test_addRoundKey_whitening :
    addRoundKey [0x00010203, 0x04050607, 0x08090a0b, 0x0c0d0e0f] 0
        (blockOfWords #v[0x00112233, 0x44556677, 0x8899aabb, 0xccddeeff]) =
      blockOfWords #v[0x00102030, 0x40506070, 0x8090a0b0, 0xc0d0e0f0] := by
  decide +kernel

/-! ### ENCB (R160, R206) and DECB (R161; 95_test_vectors.md sections 1.1 and 2.5) -/

theorem test_encb_known_answer :
    reaches (exec (.encb 128) { running (runOf .encb (.block 0) 0 0 0) keyK2 with
      din := #v[0x00112233, 0x44556677, 0x8899aabb, 0xccddeeff] }) (fun t =>
      t.dout[0] == 0x69c4e0d8 && t.dout[1] == 0x6a7b0430 && t.dout[2] == 0xd8cdb780 && t.dout[3] == 0x70b4c55a) = true := by
  decide +kernel

theorem test_encb_without_schedule : reaches (step (writing 0x00800002)) (fun t => statusWord t == 0x00000006) = true := by
  decide

theorem test_decb_known_answer :
    reaches (exec (.decb 128) { running (runOf .decb (.block 0) 0 0 0) keyK2 with
      din := #v[0x69c4e0d8, 0x6a7b0430, 0xd8cdb780, 0x70b4c55a] }) (fun t =>
      t.dout[0] == 0x00112233 && t.dout[1] == 0x44556677 && t.dout[2] == 0x8899aabb && t.dout[3] == 0xccddeeff) = true := by
  decide +kernel

theorem test_decb_other_size :
    reaches (step { writing 0x00C00003 with ksSize := some .k128 }) (fun t => t.errCode == .scheduleMismatch) = true := by
  decide

/-! ### CBCE, CBCD and CTR (the examples of R180, R181, R182; 95_test_vectors.md section 2.10) -/

theorem test_cbce_first_block :
    reaches (exec (.cbce 128) { running (runOf .cbce (.block 0) 0x1000 0x2000 1) keyK1 with
      iv := #v[0x00010203, 0x04050607, 0x08090a0b, 0x0c0d0e0f]
      mem := Memory.writeBlock [] 0x1000 (blockOfWords #v[0x6bc1bee2, 0x2e409f96, 0xe93d7e11, 0x7393172a]) }) (fun t =>
      wordsOfBlock (t.mem.readBlock 0x2000) == #v[0x7649abac, 0x8119b246, 0xcee98e9b, 0x12e9197d] &&
        t.iv == #v[0x7649abac, 0x8119b246, 0xcee98e9b, 0x12e9197d]) = true := by
  decide +kernel

theorem test_cbce_partial_overlap :
    reaches (step { writing 0x00800004 with src := 0x1000, dst := 0x1010, len := 0x40 }) (fun t => t.errCode == .overlapError) =
      true := by
  decide

theorem test_cbcd_first_block_in_place :
    reaches (exec (.cbcd 128) { running (runOf .cbcd (.block 0) 0x2000 0x2000 1) keyK1 with
      iv := #v[0x00010203, 0x04050607, 0x08090a0b, 0x0c0d0e0f]
      mem := Memory.writeBlock [] 0x2000 (blockOfWords #v[0x7649abac, 0x8119b246, 0xcee98e9b, 0x12e9197d]) }) (fun t =>
      wordsOfBlock (t.mem.readBlock 0x2000) == #v[0x6bc1bee2, 0x2e409f96, 0xe93d7e11, 0x7393172a] &&
        t.iv == #v[0x7649abac, 0x8119b246, 0xcee98e9b, 0x12e9197d]) = true := by
  decide +kernel

theorem test_cbcd_last_byte_overlaps :
    reaches (step { writing 0x00800005 with src := 0x1000, dst := 0x0FC1, len := 0x40 }) (fun t => t.errCode == .overlapError) =
      true := by
  decide

theorem test_ctr_counter_wraps :
    reaches (exec (.ctr 128) { running (runOf .ctr (.block 0) 0x3000 0x3000 2) keyK2 with iv := Vector.replicate 4 0xffffffff })
      (fun t => wordsOfBlock (t.mem.readBlock 0x3000) == #v[0x3c441f32, 0xce078223, 0x64d7a299, 0x0e50bb13] &&
        t.iv == Vector.replicate 4 0 && t.blkCnt == 1) = true := by
  decide +kernel

theorem test_ctr_address_range :
    reaches (step { writing 0x00800006 with src := 0x1000, dst := 0xffffffe0, len := 64 }) (fun t => t.errCode == .addressRange) =
      true := by
  decide

/-! ### Registers (95_test_vectors.md section 2.11) -/

theorem test_status_ignores_ones_written :
    reaches (step { State.reset with done := true, moves := [.regWrite 0x008 4 0xffffffff] }) (fun t => statusWord t == 2) =
      true := by
  decide

theorem test_cmd_reads_back_a_rejected_word :
    reaches (step (writing 0x00800007)) (fun t => regValue t .cmd == 0x00800007 && errcodeWord t == 1) = true := by
  decide

/-! ### Witnesses: what each statement assumes can hold -/

theorem witness_DecodeUndoesEncode : (Instr.ctr 256).wellFormed = true ∧ (Instr.ctr 255).wellFormed = false := by decide

theorem witness_EncodeUndoesDecode : decodeInstr 0xFFFF0006 = .ok (.ctr 0xFFFF) := by decide

/-- OP 0, 7 and 15, RSVD at both ends; then an illegal KEYBITS beside each legal one; then each OP with a legal one. -/
theorem witness_DecodeGivesTheVerdictOfEveryWord :
    (∀ c ∈ ([0x00800000, 0x00800007, 0x0080000F, 0x00800011, 0x00808001] : List Word),
      c.toNat / 16 % 4096 ≠ 0 ∨ c.toNat % 16 = 0 ∨ 7 ≤ c.toNat % 16) ∧
    (∀ c ∈ ([0x007F0001, 0x00810006, 0x01010001, 0xFFFF0006, 0x00000001] : List Word),
      c.toNat / 16 % 4096 = 0 ∧ 1 ≤ c.toNat % 16 ∧ c.toNat % 16 ≤ 6 ∧ c.toNat / 65536 ∉ [128, 192, 256]) ∧
    (∀ op ∈ [1, 2, 3, 4, 5, 6], ∃ c ∈ ([0x00800001, 0x00C00002, 0x01000003, 0x00800004, 0x00C00005, 0x01000006] : List Word),
      c.toNat / 16 % 4096 = 0 ∧ c.toNat % 16 = op ∧ c.toNat / 65536 ∈ [128, 192, 256]) := by
  simp

theorem witness_StepSubmitsTheCommandWritten :
    (writing 0x01000006).moves = cmdWrite (writing 0x01000006).platform 0x01000006 :: [] ∧ (writing 0x01000006).seq = .idle ∧
      decodeInstr 0x01000006 = .ok (.ctr 256) := by
  decide

theorem witness_StepRunsTheRunningCommand :
    (running (runOf .ctr .finish 0 0 0) keyK1).seq = .run (runOf .ctr .finish 0 0 0) ∧
      (running (runOf .ctr .finish 0 0 0) keyK1).moves = [] ∧
      ({ running (runOf .ctr .finish 0 0 0) keyK1 with moves := [.sequencer] } : State).moves = .sequencer :: [] ∧
      State.reset.seq = .idle ∧ State.reset.moves = [] :=
  ⟨rfl, rfl, rfl, rfl, rfl⟩

/-- A submission for each code of R202 and an accepted one for each operation; a write while BUSY. -/
theorem witness_SubmissionFollowsTheChecksInOrder :
    submissionError 0x00640000 State.reset = some .invalidCommand ∧ submissionError 0x00640001 State.reset = some .invalidKeySize ∧
    submissionError 0x00800002 State.reset = some .scheduleMismatch ∧
    submissionError 0x00800004 { State.reset with len := 15 } = some .invalidInputLength ∧
    submissionError 0x00800005 { State.reset with src := 0xfffffff0, len := 32 } = some .addressRange ∧
    submissionError 0x00800006 { State.reset with dst := 15, len := 16 } = some .overlapError ∧
    submissionError 0x00800001 State.reset = none ∧
    submissionError 0x00800002 { State.reset with ksSize := some .k128 } = none ∧
    submissionError 0x00800003 { State.reset with ksSize := some .k128 } = none ∧
    submissionError 0x00800004 { State.reset with dst := 16, len := 16 } = none ∧
    submissionError 0x00800005 { State.reset with src := 0xfffffff0, len := 16 } = none ∧
    submissionError 0x00800006 { State.reset with src := 0xffffffff } = none ∧
    ({ running (runOf .ctr .finish 0 0 0) keyK1 with moves := [cmdWrite ⟨0, []⟩ 0x00800001] } : State).moves =
      cmdWrite (running (runOf .ctr .finish 0 0 0) keyK1).platform 0x00800001 :: [] := by
  refine ⟨?_, ?_, ?_, ?_, ?_, ?_, ?_, ?_, ?_, ?_, ?_, ?_, rfl⟩ <;> decide

theorem witness_ExecDecidesASubmission :
    submissionError (encode (.decb 100)) State.reset = some .invalidKeySize ∧ submissionError (encode (.expand 256)) State.reset = none ∧
    State.reset.seq = .idle ∧ (running (runOf .ctr .finish 0 0 0) keyK1).seq = .run (runOf .ctr .finish 0 0 0) ∧
    (runOf .ctr .finish 0 0 0).instr ≠ .ctr 192 := by
  refine ⟨?_, ?_, rfl, rfl, ?_⟩ <;> decide

theorem witness_ExpandStepBuildsTheRoundKeyStore :
    ∀ op ∈ [Op.expand, .cbce, .cbcd, .ctr],
      (running (runOf op .expand 0 0 0) keyK1).seq = .run (runOf op .expand 0 0 0) ∧ (runOf op .expand 0 0 0).phase = .expand ∧
        (op = .expand ∨ op = .cbce ∨ op = .cbcd ∨ op = .ctr) := by
  intro op h
  refine ⟨rfl, rfl, ?_⟩
  revert op
  decide

theorem witness_EncbEncryptsDinIntoDout :
    (running (runOf .encb (.block 0) 0 0 0) keyK2).seq = .run (runOf .encb (.block 0) 0 0 0) ∧
      (runOf .encb (.block 0) 0 0 0).op = .encb ∧ (runOf .encb (.block 0) 0 0 0).kb = .k128 ∧
      (runOf .encb (.block 0) 0 0 0).phase = .block 0 :=
  ⟨rfl, rfl, rfl, rfl⟩

theorem witness_DecbDecryptsDinIntoDout :
    (running (runOf .decb (.block 0) 0 0 0) keyK2).seq = .run (runOf .decb (.block 0) 0 0 0) ∧
      (runOf .decb (.block 0) 0 0 0).op = .decb ∧ (runOf .decb (.block 0) 0 0 0).kb = .k128 ∧
      (runOf .decb (.block 0) 0 0 0).phase = .block 0 :=
  ⟨rfl, rfl, rfl, rfl⟩

/-- What the three block step statements assume, at the last block of a message that ends at the top of memory. -/
def AtTheTop (op : Op) (r : Run) (s : State) : Prop :=
  s.seq = .run r ∧ r.op = op ∧ r.kb = .k128 ∧ r.phase = .block 1 ∧ blockAddress r.src 1 + 16 = 2 ^ 32 ∧
    blockAddress r.dst 1 + 16 ≤ 2 ^ 32 ∧ memOk s.platform .read (blockAddress r.src 1) = true ∧
    memOk s.platform .write (blockAddress r.dst 1) = true

theorem atTheTop (op : Op) :
    AtTheTop op (runOf op (.block 1) 0xffffffe0 0x1000 2) (running (runOf op (.block 1) 0xffffffe0 0x1000 2) keyK2) := by
  refine ⟨rfl, rfl, rfl, rfl, ?_, ?_, rfl, rfl⟩ <;> cases op <;> decide +kernel

theorem witness_CbceBlockStepEncryptsAndChains : ∃ r s, AtTheTop .cbce r s := ⟨_, _, atTheTop .cbce⟩

theorem witness_CbcdBlockStepDecryptsAndChains : ∃ r s, AtTheTop .cbcd r s := ⟨_, _, atTheTop .cbcd⟩

theorem witness_CtrBlockStepXorsTheKeystream :
    (∃ r s, AtTheTop .ctr r s) ∧
      be128 (Vector.replicate 16 0) = (be128 (blockOfWords (Vector.replicate 4 0xffffffff)) + 1) % 2 ^ 128 :=
  ⟨⟨_, _, atTheTop .ctr⟩, by decide⟩

/-- The memory refuses the read in one platform, the write in the other. -/
theorem witness_RefusedRequestEndsInBusError :
    memOk ⟨0, [⟨.read, 0x1000, 0x1000⟩]⟩ .read (blockAddress 0x1000 0) = false ∧
    memOk ⟨0, [⟨.read, 0x1000, 0x1000⟩]⟩ .write (blockAddress 0x1000 0) = true ∧
    memOk ⟨0, [⟨.write, 0x0FFF, 0x2000⟩]⟩ .write (blockAddress 0x1000 0) = false ∧
    (∀ op ∈ [Op.cbce, .cbcd, .ctr], (running (runOf op (.block 0) 0x1000 0x1000 1) keyK2).seq =
      .run (runOf op (.block 0) 0x1000 0x1000 1)) :=
  ⟨by decide, by decide, by decide, fun _ _ => rfl⟩

theorem witness_FinishStepCompletesTheCommand :
    ∀ op, (running (runOf op .finish 0 0 0) keyK1).seq = .run (runOf op .finish 0 0 0) ∧ (runOf op .finish 0 0 0).phase = .finish :=
  fun _ => ⟨rfl, rfl⟩

/-- A submission, a sequencer step, and a submission while another command runs. -/
theorem witness_CommandsWriteOnlyTheirOwnRegisters :
    (∃ t, exec (.encb 128) State.reset = .next t) ∧
    (∃ t, exec (.decb 128) (running (runOf .decb .finish 0 0 0) keyK1) = .next t ∧
      (running (runOf .decb .finish 0 0 0) keyK1).seq ≠ .idle) ∧
    (∃ t, exec (.expand 128) (running (runOf .decb .finish 0 0 0) keyK1) = .next t ∧
      t.wign ≠ (running (runOf .decb .finish 0 0 0) keyK1).wign) :=
  ⟨⟨_, rfl⟩, ⟨_, rfl, by decide⟩, ⟨_, rfl, by decide⟩⟩

theorem witness_CommandsStoreOnlyTheBlockOfTheStep :
    State.reset.mem.wf ∧
    (∃ t, exec (.ctr 128) (running (runOf .ctr (.block 0) 0x1000 0x1000 1) keyK2) = .next t) ∧
    (runOf .ctr (.block 0) 0x1000 0x1000 1).instr = .ctr 128 ∧
    (∃ t, exec (.encb 128) (running (runOf .encb (.block 0) 0 0 0) keyK2) = .next t) ∧
    (∀ r j, (running (runOf .encb (.block 0) 0 0 0) keyK2).seq = .run r → r.instr = .encb 128 → r.phase = .block j →
      ¬ ((Instr.encb 128).op = .cbce ∨ (Instr.encb 128).op = .cbcd ∨ (Instr.encb 128).op = .ctr)) :=
  ⟨by decide, ⟨_, rfl⟩, by decide, ⟨_, rfl⟩, fun _ _ _ _ _ => by decide⟩

theorem witness_ExpandCommandRunsToCompletion :
    (writing (encode (.expand KeySize.k192.bits))).seq = .idle ∧
      (writing (encode (.expand KeySize.k192.bits))).moves =
        [cmdWrite (writing (encode (.expand KeySize.k192.bits))).platform (encode (.expand KeySize.k192.bits))] :=
  ⟨rfl, rfl⟩

theorem witness_SingleBlockCommandRunsToCompletion :
    ∀ i ∈ [Instr.encb KeySize.k256.bits, .decb KeySize.k256.bits],
      ({ writing (encode i) with ksSize := some .k256 } : State).seq = .idle ∧
      ({ writing (encode i) with ksSize := some .k256 } : State).ksSize = some .k256 ∧
      ({ writing (encode i) with ksSize := some .k256 } : State).moves = [cmdWrite (writing (encode i)).platform (encode i)] :=
  fun _ _ => ⟨rfl, rfl, rfl⟩

/-- A message of one block, the empty message, and a message in place. -/
theorem witness_ModeCommandTransformsTheMessage :
    (∃ f, BlockFunction .cbcd f) ∧ (oneBlock 0x00800005).seq = .idle ∧ (oneBlock 0x00800005).mem.wf ∧
    1 = (oneBlock 0x00800005).len.toNat / 16 ∧
    submissionError (encode (Op.cbcd.instr KeySize.k128.bits)) (oneBlock 0x00800005) = none ∧
    requestsAdmitted (oneBlock 0x00800005).platform 0x1000 0x2000 1 ∧
    (oneBlock 0x00800005).moves =
      [cmdWrite (oneBlock 0x00800005).platform (encode (Op.cbcd.instr KeySize.k128.bits))] ∧
    0 = (writing 0x00800005).len.toNat / 16 ∧
    submissionError (encode (Op.cbcd.instr KeySize.k128.bits)) (writing 0x00800005) = none ∧
    submissionError (encode (Op.cbcd.instr KeySize.k128.bits)) { oneBlock 0x00800005 with dst := 0x1000 } = none :=
  ⟨⟨_, .cbcd⟩, rfl, by decide, by decide, by decide, fun _ _ => ⟨rfl, rfl⟩, by decide, by decide, by decide, by decide⟩

/-- A CTR message of two blocks, about to be submitted on a platform that refuses some requests. -/
def twoBlocksRefused (refused : List RefusedRange) : State :=
  { oneBlock 0x00800006 with len := 32, platform := ⟨0, refused⟩ }

/-- What BusErrorKeepsTheBlocksBefore assumes of a CTR message that ends at block `j`. -/
def EndsAtBlock (s : State) (j : Nat) : Prop :=
  s.seq = .idle ∧ s.mem.wf ∧ j < s.len.toNat / 16 ∧ submissionError (encode (Op.ctr.instr KeySize.k128.bits)) s = none ∧
    requestsAdmitted s.platform s.src s.dst j ∧
    (memOk s.platform .read (blockAddress s.src j) = false ∨ memOk s.platform .write (blockAddress s.dst j) = false) ∧
    s.moves = [cmdWrite s.platform (encode (Op.ctr.instr KeySize.k128.bits))]

/-- The first block's read is refused; the last block's write is. -/
theorem witness_BusErrorKeepsTheBlocksBefore :
    (∃ f, BlockFunction .ctr f) ∧ EndsAtBlock (twoBlocksRefused [⟨.read, 0x1000, 0x100F⟩]) 0 ∧
      EndsAtBlock (twoBlocksRefused [⟨.write, 0x2001, 0x2010⟩]) 1 :=
  ⟨⟨_, .ctr⟩,
    ⟨rfl, by decide, by decide, by decide, fun _ h => absurd h (Nat.not_lt_zero _), .inl (by decide), by decide⟩,
    ⟨rfl, by decide, by decide, by decide,
      fun i h => by obtain rfl : i = 0 := by omega
                    decide,
      .inr (by decide), by decide⟩⟩

theorem witness_CtrCounterIsTheWholeInteger : 0 < ([Vector.replicate 16 0] : List Block).length := by decide

/-- A message that ends at the top of memory, split after its first block, before it and after its last; and the empty message. -/
theorem witness_SplitMessageContinues :
    let s : State := { State.reset with src := 0xffffffe0, dst := 0x1000, len := 32 }
    s.seq = .idle ∧ s.mem.wf ∧ s.len.toNat = 16 * (1 + 1) ∧ s.len.toNat = 16 * (0 + 2) ∧ s.len.toNat = 16 * (2 + 0) ∧
      (∀ op ∈ [Op.cbce, .cbcd, .ctr], submissionError (encode (op.instr KeySize.k128.bits)) s = none) ∧
      requestsAdmitted s.platform s.src s.dst 2 ∧ State.reset.len.toNat = 16 * (0 + 0) :=
  ⟨rfl, by decide, by decide, by decide, by decide, by decide, fun _ _ => ⟨rfl, rfl⟩, by decide⟩

/-- A mode command's run at its first block, of two. -/
def firstOfTwo : State := running (runOf .cbce (.block 0) 0x1000 0x2000 2) keyK1

theorem firstOfTwo_inv : firstOfTwo.Inv where
  memory := by decide
  base := by decide
  store := ⟨keyK1, rfl⟩
  blocks := by decide
  fresh := fun h => by cases h
  run := by
    intro r h
    cases h
    exact
      { notDone := rfl
        noError := rfl
        command := by decide
        srcLatched := rfl
        dstLatched := rfl
        nblkLatched := by decide
        message := fun _ => by decide
        phase := ⟨rfl, rfl, .inl ⟨rfl, by decide⟩⟩
        lastInCbcd := fun h => absurd rfl h }

theorem witness_StepKeepsTheInvariant : firstOfTwo.Inv ∧ ∃ t, step firstOfTwo = .next t := ⟨firstOfTwo_inv, _, rfl⟩

theorem witness_RunningCommandNeverStops :
    firstOfTwo.Inv ∧ firstOfTwo.seq = .run (runOf .cbce (.block 0) 0x1000 0x2000 2) := ⟨firstOfTwo_inv, rfl⟩

theorem witness_RunEndsWithinItsBound :
    firstOfTwo.Inv ∧ firstOfTwo.seq = .run (runOf .cbce (.block 0) 0x1000 0x2000 2) ∧ firstOfTwo.moves = [] :=
  ⟨firstOfTwo_inv, rfl, rfl⟩

/-- At an expansion step, and at reset. -/
theorem witness_RoundKeysChangeOnlyAtExpansionOrReset :
    (∃ t, step { running (runOf .expand .expand 0 0 0) keyK1 with ksSize := none } = .next t ∧ t.ksSize ≠ none) ∧
    (∃ t, step { firstOfTwo with moves := [.reset] } = .next t ∧ t.ksSize ≠ firstOfTwo.ksSize) :=
  ⟨⟨_, rfl, by decide⟩, ⟨_, rfl, by decide⟩⟩

/-- At a host memory write, and at a block step: CTR of one zero block under K2 with the counter 2^128 - 1 (R182). -/
theorem witness_MemoryChangesOnlyByHostOrBlockStep :
    State.reset.mem.wf ∧
    reaches (step { State.reset with moves := [.memWrite 0xFFFFFFFF [0x5A]] }) (fun t => t.mem.readByte 0xFFFFFFFF != 0) = true ∧
    reaches (step { running (runOf .ctr (.block 0) 0x3000 0x3000 1) keyK2 with iv := Vector.replicate 4 0xffffffff })
      (fun t => t.mem.readByte 0x3000 != 0) = true := by
  refine ⟨by decide, by decide, by decide +kernel⟩

theorem witness_OperandRegistersChangeOnlyByTheHost :
    (∃ t, step { State.reset with moves := [.regWrite 0x020 4 1] } = .next t ∧ t.key ≠ State.reset.key) ∧
    (∃ t, step { firstOfTwo with moves := [.reset] } = .next t ∧ t.src ≠ firstOfTwo.src) :=
  ⟨⟨_, rfl, by decide +kernel⟩, ⟨_, rfl, by decide⟩⟩

theorem witness_CanonicalMemoriesAreExtensional : Memory.wf [(0, 1), (0xFFFFFFFF, 2)] := by decide

theorem witness_ResetFromEveryState : ({ firstOfTwo with moves := [.reset] } : State).moves = .reset :: [] := rfl

/-- The platform of a core whose window is at 0x40000200. -/
def highPlatform : Platform := ⟨0x40000200, []⟩

/-- Each way to miss the window (a width, one register below, one above, off the grid), and its first and last register. -/
theorem witness_OnlyAlignedWordAccessesAreAdmitted :
    (∀ a ∈ [(2, 0x40000200), (4, 0x400001FC), (4, 0x40000400), (4, 0x40000202)],
      a.1 ≠ 4 ∨ a.2 < highPlatform.coreBase ∨ highPlatform.coreBase + 0x200 ≤ a.2 ∨ (a.2 - highPlatform.coreBase) % 4 ≠ 0) ∧
    (∀ addr ∈ [0x40000200, 0x400003FC],
      highPlatform.coreBase ≤ addr ∧ addr < highPlatform.coreBase + 0x200 ∧ (addr - highPlatform.coreBase) % 4 = 0) ∧
    ({ State.reset with platform := highPlatform, moves := [.regRead 0x400003FC 4] } : State).moves =
      .regRead 0x400003FC 4 :: [] := by
  refine ⟨?_, ?_, rfl⟩ <;> decide

/-- The first and last register of each volatile group, read while BUSY; an exact register read while BUSY; a volatile one while Idle. -/
theorem witness_RegisterReadsAreExactOrUnspecified :
    regAt 0x060 = some (.dout 0) ∧ regAt 0x06C = some (.dout 3) ∧ regAt 0x040 = some (.iv 0) ∧ regAt 0x04C = some (.iv 3) ∧
    regAt 0x100 = some (.rk 0) ∧ regAt 0x1EC = some (.rk 59) ∧ regAt 0x010 = some .ksinfo ∧ firstOfTwo.busy = true ∧
    regAt 0x014 = some .blkcnt ∧ regAt 0x1F0 = some .reserved ∧ State.reset.busy = false := by
  decide

theorem witness_WritesWhileBusyAreIgnored :
    regAt 0x004 = some .cmd ∧ regAt 0x03C = some (.key 7) ∧ regAt 0x04C = some (.iv 3) ∧ regAt 0x05C = some (.din 3) ∧
    regAt 0x070 = some .src ∧ regAt 0x074 = some .dst ∧ regAt 0x078 = some .len ∧ regAt 0x000 = some .id ∧
    regAt 0x00C = some .errcode ∧ regAt 0x07C = some .reserved ∧ regAt 0x008 = some .status ∧ firstOfTwo.busy = true := by
  decide

theorem witness_IdleWritesStoreTheWholeWord :
    regAt 0x020 = some (.key 0) ∧ regAt 0x050 = some (.din 0) ∧ regAt 0x018 = some .reserved ∧ regAt 0x06C = some (.dout 3) ∧
      State.reset.busy = false := by
  decide

theorem witness_StatusWriteClearsOnlyWign :
    ({ firstOfTwo with moves := [.regWrite 0x008 4 0x10] } : State).moves =
      .regWrite (firstOfTwo.platform.coreBase + 0x008) 4 0x10 :: [] ∧
    (0x10 : Word).getLsbD 4 = true ∧ (0xFFFFFFEF : Word).getLsbD 4 = false := by
  refine ⟨rfl, ?_, ?_⟩ <;> decide

/-- Writes of `IV0`, `CMD` and `LEN` lost while BUSY set WIGN; a `STATUS` write and reset clear it. -/
theorem witness_WignIsSticky :
    (∃ t, step { firstOfTwo with moves := [.regWrite 0x004 4 0x00800001] } = .next t ∧ t.wign ≠ firstOfTwo.wign) ∧
    (∃ t, step { firstOfTwo with moves := [.regWrite 0x078 4 0] } = .next t ∧ t.wign ≠ firstOfTwo.wign) ∧
    (∃ t, step { firstOfTwo with moves := [.regWrite 0x040 4 0x12345678] } = .next t ∧ t.wign ≠ firstOfTwo.wign) ∧
    (∃ t, step { firstOfTwo with wign := true, moves := [.regWrite 0x008 4 0x10] } = .next t ∧ t.wign ≠ true) ∧
    (∃ t, step { firstOfTwo with wign := true, moves := [.reset] } = .next t ∧ t.wign ≠ true) :=
  ⟨⟨_, rfl, by decide⟩, ⟨_, rfl, by decide⟩, ⟨_, rfl, by decide⟩, ⟨_, rfl, by decide⟩, ⟨_, rfl, by decide⟩⟩

/-- Writes that end at the last byte before a buffer and at its first byte; an access that ends at the top of memory. -/
theorem witness_HostMemoryMovesRespectTheBuffers :
    firstOfTwo.busy = true ∧ inBuffers firstOfTwo 0x0FFF = false ∧ inBuffers firstOfTwo 0x1000 = true ∧
    inBuffers firstOfTwo 0x101F = true ∧ inBuffers firstOfTwo 0x1020 = false ∧ inBuffers firstOfTwo 0x201F = true ∧
    0xFFFFFFFF + ([0x5A] : List Byte).length ≤ 2 ^ 32 ∧ State.reset.busy = false := by
  decide

theorem witness_FieldInverseInverts : (1 : Byte) ≠ 0 := by decide

theorem witness_KeyExpansionFollowsTheRecurrence :
    ∀ k : KeySize, (List.replicate k.nk (0 : Word)).length = k.nk ∧ k.nk ≤ 4 * (k.nr + 1) - 1 ∧
      4 * (k.nr + 1) - 1 < 4 * (k.nr + 1) := by
  intro k
  cases k <;> decide

theorem witness_RoundKeysOf256BitKeysAlternate :
    (List.replicate 8 (0 : Word)).length = 8 ∧ (1 ≤ 7 ∧ 7 ≤ 7) ∧ (1 ≤ 6 ∧ 6 ≤ 6) ∧ (1 ≤ 7 ∧ 1 ≤ 3 ∧ 3 ≤ 7 ∧ 3 ≠ 4 ∧ 8 * 7 + 3 < 60) ∧
      (1 ≤ 6 ∧ 1 ≤ 7 ∧ 7 ≤ 7 ∧ 7 ≠ 4 ∧ 8 * 6 + 7 < 60) := by
  decide

theorem witness_RoundKeysOf192BitKeysAreUniform :
    (List.replicate 6 (0 : Word)).length = 6 ∧ (1 ≤ 8 ∧ 8 ≤ 8) ∧ (1 ≤ 8 ∧ 1 ≤ 3 ∧ 3 ≤ 5 ∧ 6 * 8 + 3 < 52) ∧
      (1 ≤ 7 ∧ 1 ≤ 5 ∧ 5 ≤ 5 ∧ 6 * 7 + 5 < 52) := by
  decide

theorem witness_UnusedKeyRegistersDoNotMatter :
    (∀ i (_ : i < 8), i < KeySize.k128.nk → keyK1[i] = (keyK1.set 4 0xFFFFFFFF)[i]) ∧ keyK1 ≠ keyK1.set 4 0xFFFFFFFF := by
  decide +kernel

/-- The last byte of the state, which takes the last byte of the schedule's last word at round 14. -/
theorem witness_RoundTransformsByRowAndColumn : 3 < 4 ∧ 3 + 4 * 3 = 15 ∧ 4 * 14 + 3 = 59 := by decide

theorem witness_CipherAndInvCipherUndoEachOther : ∀ k : KeySize, 1 ≤ k.nr ∧ (1 ≤ 1 ∧ 1 < k.nr) ∧ 1 ≤ k.nr - 1 ∧ k.nr - 1 < k.nr := by
  intro k
  cases k <;> decide

end Sys2Proof.Tests
end

section
/-! PROOFS. The invariant of the machine (10_state.md R21 to R38, 43_modes.md R175): what of the state it speaks of, which updates
leave that alone, and how each sequencer step moves it. -/

namespace Sys2Proof.Machine

/-! ### What of the state the invariant speaks of -/

/-- `t` holds the same command as `s`: its word, its flags and its operands (R24, R25, R36). -/
structure SameCommand (s t : State) : Prop where
  done : t.done = s.done
  errCode : t.errCode = s.errCode
  cmd : t.cmd = s.cmd
  src : t.src = s.src
  dst : t.dst = s.dst
  len : t.len = s.len

/-- `t` agrees with `s` on everything of the core the invariant speaks of. -/
structure SameControl (s t : State) : Prop extends SameCommand s t where
  ksSize : t.ksSize = s.ksSize
  rk : t.rk = s.rk
  blkCnt : t.blkCnt = s.blkCnt
  seq : t.seq = s.seq
  coreBase : t.platform.coreBase = s.platform.coreBase

theorem checkMessage_congr {s t : State} (h : SameCommand s t) (k : KeySize) : checkMessage k t = checkMessage k s := by
  simp only [checkMessage, h.src, h.dst, h.len]

theorem phaseHolds_congr {r : Run} {s t : State} (hk : t.ksSize = s.ksSize) (hb : t.blkCnt = s.blkCnt)
    (h : phaseHolds r s) : phaseHolds r t := by
  simpa only [phaseHolds, hk, hb] using h

theorem storeHolds_congr {s t : State} (hk : t.ksSize = s.ksSize) (hr : t.rk = s.rk) (h : storeHolds s) : storeHolds t := by
  simpa only [storeHolds, hk, hr] using h

/-- A run goes on with its command: only the phase and the hidden state are new. -/
theorem RunHolds.advance {r : Run} {s t : State} (h : RunHolds r s) (hs : SameCommand s t) {p : Phase}
    {w l : Option Block} (hp : phaseHolds { r with phase := p, work := w, lastIn := l } t)
    (hl : l ≠ none → r.op = .cbcd) : RunHolds { r with phase := p, work := w, lastIn := l } t where
  notDone := hs.done.trans h.notDone
  noError := hs.errCode.trans h.noError
  command := hs.cmd ▸ h.command
  srcLatched := h.srcLatched.trans hs.src.symm
  dstLatched := h.dstLatched.trans hs.dst.symm
  nblkLatched := hs.len ▸ h.nblkLatched
  message := fun hm => (checkMessage_congr hs r.kb).trans (h.message hm)
  phase := hp
  lastInCbcd := hl

/-- An update that leaves the control registers alone and the memory canonical keeps the invariant. -/
theorem State.Inv.congr {s t : State} (h : s.Inv) (hm : t.mem.wf) (hs : SameControl s t := by repeat' constructor) :
    t.Inv where
  memory := hm
  base := hs.coreBase ▸ h.base
  store := storeHolds_congr hs.ksSize hs.rk h.store
  blocks := hs.blkCnt ▸ h.blocks
  fresh := fun hi hd => hs.errCode.trans (h.fresh (hs.seq ▸ hi) (hs.done ▸ hd))
  run := fun r hr =>
    have hrun : RunHolds r s := h.run r (hs.seq ▸ hr)
    hrun.advance hs.toSameCommand (phaseHolds_congr hs.ksSize hs.blkCnt hrun.phase) hrun.lastInCbcd

/-- With the sequencer Idle the invariant says nothing of the command's word and operands. -/
theorem State.Inv.of_idle {s t : State} (h : s.Inv) (hi : t.seq = .idle) (hf : t.done = false → t.errCode = .ok)
    (hm : t.mem = s.mem := by rfl) (hp : t.platform = s.platform := by rfl) (hk : t.ksSize = s.ksSize := by rfl)
    (hr : t.rk = s.rk := by rfl) (hb : t.blkCnt = s.blkCnt := by rfl) : t.Inv where
  memory := hm ▸ h.memory
  base := hp ▸ h.base
  store := storeHolds_congr hk hr h.store
  blocks := hb ▸ h.blocks
  fresh := fun _ hd => hf hd
  run := fun r hrun => by rw [hi] at hrun; cases hrun

/-- A command that ends, with an error or without, leaves the invariant: DONE is 1 and no run is left (R176, R203). -/
theorem State.Inv.raiseError {s : State} (h : s.Inv) (e : ErrorCode) : (raiseError e s).Inv :=
  h.of_idle rfl fun hd => by cases hd

theorem State.Inv.complete {s : State} (h : s.Inv) : (complete s).Inv :=
  h.of_idle rfl fun hd => by cases hd

/-- Taking a move from the list keeps the invariant. -/
theorem State.Inv.takeMoves {s : State} (h : s.Inv) (rest : List Move) : ({ s with moves := rest } : State).Inv :=
  h.congr h.memory

/-! ### Reset -/

/-- Every state with a canonical memory and an aligned window meets the invariant once its core is reset (R45, R230). -/
theorem inv_resetCore {s : State} (hm : s.mem.wf) (hb : s.platform.coreBase % 512 = 0) : (resetCore s).Inv where
  memory := hm
  base := hb
  store := rfl
  blocks := Nat.zero_le _
  fresh := fun _ _ => rfl
  run := fun r hr => by cases hr

/-- Settles O27: the reset state is the reset of itself, with no memory written and the window at 0. -/
theorem invariantHoldsAtReset : Obligations.InvariantHoldsAtReset :=
  inv_resetCore (s := State.reset) ⟨List.Pairwise.nil, fun _ hc => by cases hc⟩ rfl

/-! ### Submission (R170, R171) -/

/-- The word of an accepted command decodes to the command the run is of. -/
theorem decode_accepted {c : Word} {i : Instr} {k : KeySize} (hd : decodeInstr c = .ok i)
    (hk : keySizeOf i.keyBits = some k) : decode c = .ok (i.op.instr k.bits) := by
  have hwf : i.wellFormed = true := by
    by_contra hn
    have hnone := (keySizeOf_eq_none_iff i.keyBits).2 (by simpa [Instr.wellFormed] using hn)
    rw [hk] at hnone
    cases hnone
  rw [← keySizeOf_eq_some hk, instr_op_keyBits, decode, hd]
  exact if_pos hwf

theorem checksOf_of_isMode {op : Op} (h : isMode op = true) : checksOf op = checkMessage := by
  cases op
  case cbce | cbcd | ctr => rfl
  all_goals cases h

/-- A command that builds no schedule is ENCB or DECB, and asks for the schedule of its key size (R206). -/
theorem single_of_not_buildsSchedule {op : Op} {k : KeySize} {s : State} (hop : buildsSchedule op = false)
    (hc : checksOf op k s = none) : (op = .encb ∨ op = .decb) ∧ s.ksSize = some k := by
  have hks : checkSchedule k s = none → s.ksSize = some k := by
    intro h
    by_contra hne
    simp [checkSchedule, hne] at h
  cases op
  case encb => exact ⟨.inl rfl, hks hc⟩
  case decb => exact ⟨.inr rfl, hks hc⟩
  all_goals cases hop

/-- The first phase of an accepted command is one it can stand in (R171, R175). -/
theorem phaseHolds_startRun {op : Op} {k : KeySize} {s : State} (hc : checksOf op k s = none) :
    phaseHolds (startRun op k s) (accept op k s) := by
  cases hb : buildsSchedule op with
  | true => simp [phaseHolds, startRun, hb]
  | false =>
    obtain ⟨hop, hks⟩ := single_of_not_buildsSchedule hb hc
    simp [phaseHolds, startRun, hb, hop, hks]

theorem runHolds_accept {i : Instr} {k : KeySize} {s : State} (hd : decodeInstr s.cmd = .ok i)
    (hk : keySizeOf i.keyBits = some k) (hc : checksOf i.op k s = none) :
    RunHolds (startRun i.op k s) (accept i.op k s) where
  notDone := rfl
  noError := rfl
  command := decode_accepted hd hk
  srcLatched := rfl
  dstLatched := rfl
  nblkLatched := rfl
  message := fun hm => (congrFun₂ (checksOf_of_isMode hm) k s).symm.trans hc
  phase := phaseHolds_startRun hc
  lastInCbcd := fun h => absurd rfl h

/-- A submission of the word in `CMD` keeps the invariant, rejected or accepted. -/
theorem State.Inv.submit {i : Instr} {s : State} (h : s.Inv) (hd : decodeInstr s.cmd = .ok i) :
    (submit i.op i.keyBits (checksOf i.op) s).Inv := by
  obtain ⟨-, heq⟩ | ⟨k, e, -, -, heq⟩ | ⟨k, hk, hc, heq⟩ := submit_cases i.op i.keyBits (checksOf i.op) s
  · exact heq ▸ h.raiseError _
  · exact heq ▸ h.raiseError e
  · rw [heq]
    exact
      { memory := h.memory
        base := h.base
        store := h.store
        blocks := Nat.zero_le _
        fresh := fun _ _ => rfl
        run := fun r hr => by
          cases hr
          exact runHolds_accept hd hk hc }

/-! ### The sequencer's steps (R175) -/

/-- A message has at most `0x0FFFFFFF` blocks (R28). -/
theorem RunHolds.nblk_le {r : Run} {s : State} (h : RunHolds r s) : r.nblk ≤ 0x0FFFFFFF := by
  have := h.nblkLatched
  have := s.len.isLt
  omega

/-- A command that builds its schedule first is EXPAND or a mode command. -/
theorem isMode_of_buildsSchedule {op : Op} (hb : buildsSchedule op = true) (hne : op ≠ .expand) : isMode op = true := by
  cases op
  case expand => exact absurd rfl hne
  case encb | decb => cases hb
  all_goals rfl

/-- The phase the key expansion leads to is one the run can stand in. -/
theorem phaseHolds_expandPhase {r : Run} {s : State} (hb : buildsSchedule r.op = true) (h0 : s.blkCnt = 0) :
    phaseHolds { r with phase := if r.op = .expand ∨ r.nblk = 0 then .finish else .block 0 } (expandPhase r s) := by
  have hk : (expandPhase r s).ksSize = some r.kb := rfl
  have hcnt : (expandPhase r s).blkCnt.toNat = 0 := by
    show s.blkCnt.toNat = 0
    rw [h0]
    rfl
  by_cases hp : r.op = .expand ∨ r.nblk = 0
  · simp only [phaseHolds, if_pos hp]
    refine ⟨hk, hcnt.trans ?_⟩
    rcases hp with hop | hn
    · simp [hop, isMode]
    · simp [hn]
  · obtain ⟨hne, hn⟩ := not_or.1 hp
    simp only [phaseHolds, if_neg hp]
    exact ⟨hk, hcnt, .inl ⟨isMode_of_buildsSchedule hb hne, Nat.pos_of_ne_zero hn⟩⟩

/-- The expansion step leaves the schedule of KEY in the store (R126). -/
theorem State.Inv.expandPhase {r : Run} {s : State} (h : s.Inv) (hs : s.seq = .run r) (hp : r.phase = .expand) :
    (expandPhase r s).Inv where
  memory := h.memory
  base := h.base
  store := ⟨s.key, rfl⟩
  blocks := h.blocks
  fresh := fun hi => by cases hi
  run := fun r' hr => by
    cases hr
    have hrun := h.run r hs
    have hph := hrun.phase
    simp only [phaseHolds, hp] at hph
    exact hrun.advance (by constructor <;> rfl) (phaseHolds_expandPhase hph.1 hph.2) hrun.lastInCbcd

/-- The block step of ENCB and DECB leads to Finish with BLKCNT still 0. -/
theorem State.Inv.singleBlockStep {f : List Word → Nat → Block → Block} {r : Run} {s : State} (h : s.Inv)
    (hs : s.seq = .run r) (hp : r.phase = .block 0) (hop : r.op = .encb ∨ r.op = .decb) :
    (singleBlockStep f r s).Inv where
  memory := h.memory
  base := h.base
  store := h.store
  blocks := h.blocks
  fresh := fun hi => by cases hi
  run := fun r' hr => by
    cases hr
    have hrun := h.run r hs
    have hph := hrun.phase
    simp only [phaseHolds, hp] at hph
    obtain ⟨hk, hcnt, -⟩ := hph
    have hmode : isMode r.op = false := by rcases hop with h | h <;> rw [h] <;> rfl
    refine hrun.advance (by constructor <;> rfl) ⟨hk, ?_⟩ hrun.lastInCbcd
    simpa [hmode] using hcnt

/-- Only CBCD saves the block it read (R36, R181). -/
theorem blockResult_lastIn {f : List Word → Nat → Block → Block → BlockResult} {r : Run} {i : Nat} {s : State}
    (hf : BlockFunction r.op f) (hl : (blockResult f r i s).lastIn ≠ none) : r.op = .cbcd := by
  generalize r.op = op at hf
  cases hf with
  | cbcd => rfl
  | cbce | ctr => exact absurd rfl hl

/-- After block `i` of `nblk` the run stands at the next block, or at Finish with BLKCNT the number of blocks (R28, R175). -/
theorem phaseHolds_phaseAfter {r : Run} {t : State} {i : Nat} {w l : Option Block} (hk : t.ksSize = some r.kb)
    (hcnt : t.blkCnt.toNat = i + 1) (hm : isMode r.op = true) (hi : i < r.nblk) :
    phaseHolds { r with phase := phaseAfter r.nblk i, work := w, lastIn := l } t := by
  by_cases hn : i + 1 < r.nblk
  · simp only [phaseHolds, phaseAfter, if_pos hn]
    exact ⟨hk, hcnt, .inl ⟨hm, hn⟩⟩
  · simp only [phaseHolds, phaseAfter, if_neg hn, if_pos hm]
    exact ⟨hk, by omega⟩

theorem BlockFunction.isMode {op : Op} {f : List Word → Nat → Block → Block → BlockResult} (hf : BlockFunction op f) :
    isMode op = true := by
  cases hf <;> rfl

/-- A finished block step writes 16 bytes inside memory and counts its block (R177). -/
theorem State.Inv.finishBlock {f : List Word → Nat → Block → Block → BlockResult} {r : Run} {i : Nat} {s : State}
    (h : s.Inv) (hs : s.seq = .run r) (hp : r.phase = .block i) (hf : BlockFunction r.op f)
    (hdst : blockAddress r.dst i + 16 ≤ memorySize) : (finishBlock (blockResult f r i s) r i s).Inv := by
  have hrun := h.run r hs
  have hph := hrun.phase
  simp only [phaseHolds, hp] at hph
  obtain ⟨hk, -, hwhere⟩ := hph
  have hmode := hf.isMode
  have hi : i < r.nblk := by
    rcases hwhere with ⟨-, hi⟩ | ⟨hop, -⟩
    · exact hi
    · rcases hop with h | h <;> rw [h] at hmode <;> cases hmode
  have hle := hrun.nblk_le
  have hcnt : (BitVec.ofNat 32 (i + 1)).toNat = i + 1 := Nat.mod_eq_of_lt (by omega)
  exact
    { memory := writeBlock_wf h.memory hdst _
      base := h.base
      store := h.store
      blocks := show (BitVec.ofNat 32 (i + 1)).toNat ≤ _ by omega
      fresh := fun hi => by cases hi
      run := fun r' hr => by
        cases hr
        exact hrun.advance (by constructor <;> rfl) (phaseHolds_phaseAfter hk hcnt hmode hi) (blockResult_lastIn hf) }

/-- Every step of the sequencer keeps the invariant. -/
theorem State.Inv.turn {s t : State} (h : s.Inv) (ht : TurnTo s t) : t.Inv := by
  cases ht with
  | idle => exact h
  | run r _ hs hseq =>
    obtain ⟨hp, -, rfl⟩ | ⟨hp, hop, f, rfl⟩ | ⟨i, f, hp, hf, ⟨rfl, -⟩ | ⟨rfl, -, hdst⟩⟩ | ⟨-, rfl⟩ :=
      sequence_cases hseq
    · exact h.expandPhase hs hp
    · exact h.singleBlockStep hs hp hop
    · exact h.raiseError _
    · exact h.finishBlock hs hp hf hdst
    · exact h.complete

/-! ### The host's accesses -/

/-- A register read changes nothing the invariant speaks of (R41). -/
theorem State.Inv.readReg {s : State} (h : s.Inv) (r : Reg) : (readReg r s).Inv := by
  obtain ⟨-, -, heq⟩ | ⟨-, heq⟩ := readReg_cases r s <;> rw [heq] <;> exact h.congr h.memory

/-- While Idle, `CMD` holds any word (R24). -/
theorem State.Inv.storeCmd {s : State} (h : s.Inv) (hi : s.seq = .idle) (c : Word) : ({ s with cmd := c } : State).Inv :=
  h.of_idle hi (h.fresh hi)

/-- Every register write keeps the invariant: only an Idle core lets one reach a register the invariant speaks of. -/
theorem State.Inv.write {s t : State} {r : Reg} {v : Word} (h : s.Inv) (hw : WriteTo s r v t) : t.Inv := by
  cases hw with
  | readOnly => exact h
  | status | ignored => exact h.congr h.memory
  | key | iv | din => exact h.congr h.memory
  | src _ hi | dst _ hi | len _ hi => exact h.of_idle hi (h.fresh hi)
  | badCommand _ _ hi => exact (h.storeCmd hi v).raiseError _
  | command _ _ hi hd => exact (h.storeCmd hi v).submit hd

/-- Settles O28, by what a step can do: the sequencer's turn, a host access, reset, or a change of the platform's refusals. -/
theorem stepKeepsTheInvariant : Obligations.StepKeepsTheInvariant := by
  intro s t h hstep
  cases step_cases hstep with
  | turn _ _ ht => exact h.turn ht
  | turnGiven rest _ _ ht => exact (h.takeMoves rest).turn ht
  | regRead _ _ r rest => exact (h.takeMoves rest).readReg r
  | regWrite _ _ _ _ rest _ _ _ hw => exact (h.takeMoves rest).write hw
  | memRead => exact h.congr h.memory
  | memWrite a bytes rest _ hin => exact h.congr (writeBytes_wf h.memory hin)
  | reset rest => exact inv_resetCore h.memory h.base
  | setRefused => exact h.congr h.memory

end Sys2Proof.Machine
end

section
/-! PROOFS. The register window (10_state.md R22 to R45; 20_memory.md R63): the map, reads, writes, the status words, and which
registers a step can change. -/

namespace Sys2Proof.Machine

/-! ### The register map (R22) -/

/-- The reserved offsets of the window (R35). -/
abbrev ReservedOffset (off : Nat) : Prop :=
  off = 0x018 ∨ off = 0x01C ∨ (0x07C ≤ off ∧ off ≤ 0x0FC) ∨ (0x1F0 ≤ off ∧ off ≤ 0x1FC)

/-- What each of the window's 128 words holds: the register the table gives it, or nothing at a reserved offset. -/
theorem regAt_word : ∀ q : Fin 128, (regAt (4 * q.val)).any (fun r =>
    regOffset r = some (4 * q.val) ∨ (r = .reserved ∧ ReservedOffset (4 * q.val))) = true := by
  decide

/-- No access reaches a register off the grid or beyond the window (R63). -/
theorem regAt_outside {off : Nat} (h : off % 4 ≠ 0 ∨ 0x200 ≤ off) : regAt off = none := if_pos h

theorem regAt_inside {off : Nat} (h : ¬ (off % 4 ≠ 0 ∨ 0x200 ≤ off)) :
    ∃ r, regAt off = some r ∧ (regOffset r = some off ∨ (r = .reserved ∧ ReservedOffset off)) := by
  obtain ⟨q, hq⟩ : ∃ q : Fin 128, off = 4 * q.val := ⟨⟨off / 4, by omega⟩, by show off = 4 * (off / 4); omega⟩
  simpa [hq, Option.any_eq_true] using regAt_word q

theorem regAt_eq_none_iff (off : Nat) : regAt off = none ↔ (off % 4 ≠ 0 ∨ 0x200 ≤ off) := by
  refine ⟨fun h => by_contra fun hin => ?_, regAt_outside⟩
  obtain ⟨r, hr, -⟩ := regAt_inside hin
  rw [h] at hr
  cases hr

/-- What an offset holds is the register the table gives it, or a reserved word. -/
theorem regAt_cases {off : Nat} {r : Reg} (h : regAt off = some r) :
    off % 4 = 0 ∧ (regOffset r = some off ∨ (r = .reserved ∧ ReservedOffset off)) := by
  have hin : ¬ (off % 4 ≠ 0 ∨ 0x200 ≤ off) := by
    intro hout
    rw [regAt_outside hout] at h
    cases h
  obtain ⟨r', hr', hcases⟩ := regAt_inside hin
  rw [h] at hr'
  cases hr'
  exact ⟨by omega, hcases⟩

/-- Every register but the reserved ones is found at its offset. -/
theorem regAt_of_regOffset {r : Reg} {off : Nat} (h : regOffset r = some off) : regAt off = some r := by
  have hkey : ∀ i : Fin 8, regAt (0x020 + 4 * i.val) = some (.key i) := by decide
  have hiv : ∀ i : Fin 4, regAt (0x040 + 4 * i.val) = some (.iv i) := by decide
  have hdin : ∀ i : Fin 4, regAt (0x050 + 4 * i.val) = some (.din i) := by decide
  have hdout : ∀ i : Fin 4, regAt (0x060 + 4 * i.val) = some (.dout i) := by decide
  have hrk : ∀ j : Fin 60, regAt (0x100 + 4 * j.val) = some (.rk j) := by decide
  cases r <;> cases h
  case key i => exact hkey i
  case iv i => exact hiv i
  case din i => exact hdin i
  case dout i => exact hdout i
  case rk j => exact hrk j
  all_goals decide

/-- No register of the table stands at a reserved offset. -/
theorem not_reservedOffset {r : Reg} {off : Nat} (h : regOffset r = some off) : ¬ ReservedOffset off := by
  cases r <;> cases h <;> omega

theorem regAt_reserved_iff (off : Nat) : regAt off = some .reserved ↔ (off % 4 = 0 ∧ ReservedOffset off) := by
  constructor
  · intro h
    obtain ⟨hgrid, hr | ⟨-, hoff⟩⟩ := regAt_cases h
    · cases hr
    · exact ⟨hgrid, hoff⟩
  · rintro ⟨hgrid, hoff⟩
    obtain ⟨r, hr, htab | ⟨rfl, -⟩⟩ := regAt_inside (off := off) (by omega)
    · exact absurd hoff (not_reservedOffset htab)
    · exact hr

/-- Settles O37: the two tables of the map are inverse, and what is left of the window is reserved. -/
theorem registerMapIsTheTable : Obligations.RegisterMapIsTheTable := by
  refine ⟨fun r off => ⟨fun h => ⟨?_, regAt_of_regOffset h⟩, fun ⟨hne, h⟩ => ?_⟩, regAt_reserved_iff, regAt_eq_none_iff⟩
  · rintro rfl
    cases h
  · exact (regAt_cases h).2.resolve_right fun hres => hne hres.1

/-! ### Register reads (R41, R42) -/

theorem volatile_iff (r : Reg) :
    r.volatile = true ↔ ((∃ i, r = .dout i) ∨ (∃ i, r = .iv i) ∨ (∃ j, r = .rk j) ∨ r = .ksinfo) := by
  cases r <;> simp [Reg.volatile]

/-- The host's read of a register by its offset, as a step. -/
theorem step_hostRead {s : State} {off : Nat} {r : Reg} {rest : List Move}
    (h : s.moves = .regRead (s.platform.coreBase + off) 4 :: rest) (hr : regAt off = some r) :
    step s = .next (readReg r { s with moves := rest }) := by
  simp only [step_cons h, takeMove, windowReg_offset, hr]

/-- Settles O39: `readReg` draws exactly where R42 says, and reads the register everywhere else. -/
theorem registerReadsAreExactOrUnspecified : Obligations.RegisterReadsAreExactOrUnspecified := by
  intro s r off rest hr hm
  rw [step_hostRead hm hr, ← volatile_iff]
  obtain ⟨hb, hv, heq⟩ | ⟨hnot, heq⟩ := readReg_cases r { s with moves := rest }
  · exact ⟨fun _ _ => congrArg _ heq, fun h => absurd ⟨hv, hb⟩ h⟩
  · refine ⟨fun hv hb => ?_, fun _ => congrArg _ (heq.trans rfl)⟩
    rcases hnot with hb' | hv'
    · exact absurd (hb.symm.trans hb') nofun
    · exact absurd (hv.symm.trans hv') nofun

/-! ### Register writes (R22, R25, R35, R43) -/

/-- The registers that hold what the host writes to them, `CMD` apart: a write replaces the whole word (R22). -/
def IsData (r : Reg) : Prop :=
  (∃ i, r = .key i) ∨ (∃ i, r = .iv i) ∨ (∃ i, r = .din i) ∨ r = .src ∨ r = .dst ∨ r = .len

/-- The registers a write of the host does not change (R22, R35). -/
def IsReadOnly (r : Reg) : Prop :=
  r = .id ∨ r = .errcode ∨ r = .ksinfo ∨ r = .blkcnt ∨ (∃ i, r = .dout i) ∨ (∃ j, r = .rk j) ∨ r = .reserved

theorem isData_or (r : Reg) : (r = .cmd ∨ IsData r) ∨ IsReadOnly r ∨ r = .status := by
  cases r <;> simp [IsData, IsReadOnly]

/-- While BUSY a write of `CMD` or of a data register is lost, with WIGN set (R43). -/
theorem writeReg_busy {r : Reg} {s : State} (hr : r = .cmd ∨ IsData r) (hb : s.busy = true) (v : Word) :
    writeReg r v s = .next (ignoreWrite s) := by
  have hlost : ∀ a, unlessBusy s a = .next (ignoreWrite s) := fun a => if_pos hb
  obtain rfl | ⟨i, rfl⟩ | ⟨i, rfl⟩ | ⟨i, rfl⟩ | rfl | rfl | rfl := hr <;> exact hlost _

theorem writeReg_readOnly {r : Reg} (hr : IsReadOnly r) (v : Word) (s : State) : writeReg r v s = .next s := by
  obtain rfl | rfl | rfl | rfl | ⟨i, rfl⟩ | ⟨j, rfl⟩ | rfl := hr <;> rfl

/-- Settles O40, by the kind of the register. -/
theorem writesWhileBusyAreIgnored : Obligations.WritesWhileBusyAreIgnored := by
  intro s r off v rest hr hm hb
  rw [step_hostWrite hm hr]
  refine ⟨fun hk => writeReg_busy (s := { s with moves := rest }) hk hb v, fun hk => writeReg_readOnly hk v _, ?_⟩
  rintro rfl
  rfl

/-- Settles O43: the write changes `wign` alone, to `wign` and not bit 4. -/
theorem statusWriteClearsOnlyWign : Obligations.StatusWriteClearsOnlyWign := by
  intro s v rest hm
  rw [step_hostWrite hm regAt_status]
  exact ⟨fun hv => by simp only [writeReg, writeStatus, hv, Bool.not_true, Bool.and_false],
    fun hv => by simp only [writeReg, writeStatus, hv, Bool.not_false, Bool.and_true]⟩

/-- What a data register's write leaves: the word in that register, every other register, the sequencer and memory as before. -/
structure Stored (s : State) (r : Reg) (v : Word) (t : State) : Prop where
  same : regValue t r = v
  other : ∀ r', r' ≠ r → regValue t r' = regValue s r'
  seq : t.seq = s.seq
  mem : t.mem = s.mem

theorem stored_key (s : State) (i : Fin 8) (v : Word) : Stored s (.key i) v { s with key := s.key.set i v } where
  same := Vector.getElem_set_self _
  other := by
    intro r' hne
    cases r'
    case key j => exact Vector.getElem_set_ne i.isLt j.isLt fun h => hne (congrArg Reg.key (Fin.ext h.symm))
    all_goals rfl
  seq := rfl
  mem := rfl

theorem stored_iv (s : State) (i : Fin 4) (v : Word) : Stored s (.iv i) v { s with iv := s.iv.set i v } where
  same := Vector.getElem_set_self _
  other := by
    intro r' hne
    cases r'
    case iv j => exact Vector.getElem_set_ne i.isLt j.isLt fun h => hne (congrArg Reg.iv (Fin.ext h.symm))
    all_goals rfl
  seq := rfl
  mem := rfl

theorem stored_din (s : State) (i : Fin 4) (v : Word) : Stored s (.din i) v { s with din := s.din.set i v } where
  same := Vector.getElem_set_self _
  other := by
    intro r' hne
    cases r'
    case din j => exact Vector.getElem_set_ne i.isLt j.isLt fun h => hne (congrArg Reg.din (Fin.ext h.symm))
    all_goals rfl
  seq := rfl
  mem := rfl

theorem stored_src (s : State) (v : Word) : Stored s .src v { s with src := v } where
  same := rfl
  other := by
    intro r' hne
    cases r'
    case src => exact absurd rfl hne
    all_goals rfl
  seq := rfl
  mem := rfl

theorem stored_dst (s : State) (v : Word) : Stored s .dst v { s with dst := v } where
  same := rfl
  other := by
    intro r' hne
    cases r'
    case dst => exact absurd rfl hne
    all_goals rfl
  seq := rfl
  mem := rfl

theorem stored_len (s : State) (v : Word) : Stored s .len v { s with len := v } where
  same := rfl
  other := by
    intro r' hne
    cases r'
    case len => exact absurd rfl hne
    all_goals rfl
  seq := rfl
  mem := rfl

/-- While Idle a write of a data register stores its word (R22). -/
theorem writeReg_idle {r : Reg} {s : State} (hr : IsData r) (hb : s.busy = false) (v : Word) :
    ∃ t, writeReg r v s = .next t ∧ Stored s r v t := by
  have hdone : ∀ a, unlessBusy s a = a := fun a => if_neg (by simp [hb])
  obtain ⟨i, rfl⟩ | ⟨i, rfl⟩ | ⟨i, rfl⟩ | rfl | rfl | rfl := hr
  · exact ⟨_, hdone _, stored_key s i v⟩
  · exact ⟨_, hdone _, stored_iv s i v⟩
  · exact ⟨_, hdone _, stored_din s i v⟩
  · exact ⟨_, hdone _, stored_src s v⟩
  · exact ⟨_, hdone _, stored_dst s v⟩
  · exact ⟨_, hdone _, stored_len s v⟩

/-- No register shows the moves still to come. -/
theorem regValue_moves (s : State) (rest : List Move) (r : Reg) :
    regValue { s with moves := rest } r = regValue s r := by
  cases r <;> rfl

/-- Settles O41. -/
theorem idleWritesStoreTheWholeWord : Obligations.IdleWritesStoreTheWholeWord := by
  intro s r off v rest hr hm hb
  rw [step_hostWrite hm hr]
  refine ⟨fun hk => ?_, fun hk => writeReg_readOnly hk v _⟩
  obtain ⟨t, hstep, hst⟩ := writeReg_idle (s := { s with moves := rest }) hk hb v
  exact ⟨t, hstep, hst.same, fun r' hne => (hst.other r' hne).trans (regValue_moves s rest r'), hst.seq, hst.mem⟩

/-! ### The status words (R25 to R27, R200) -/

theorem err_eq_decide (s : State) : s.err = decide (s.errCode ≠ .ok) := by
  rw [State.err]
  cases s.errCode <;> rfl

theorem ksv_eq_isSome (s : State) : s.ksv = s.ksSize.isSome := by
  rw [State.ksv, State.ksSizeBits]
  rcases s.ksSize with _ | k
  · rfl
  · cases k <;> rfl

/-- The bits of `STATUS`, from the least significant. -/
theorem getLsbD_statusWord (s : State) (i : Nat) :
    (statusWord s).getLsbD i = [s.busy, s.done, s.err, s.ksv, s.wign].getD i false := by
  simp only [statusWord, BitVec.getLsbD_append]
  match i with
  | 0 | 1 | 2 | 3 | 4 => simp
  | i + 5 => simp

theorem toNat_errcodeWord (s : State) : (errcodeWord s).toNat = s.errCode.code.toNat := by
  simp only [errcodeWord, BitVec.toNat_append]
  simp

theorem toNat_ksinfoWord (s : State) : (ksinfoWord s).toNat = s.ksSizeBits.toNat := by
  simp only [ksinfoWord, BitVec.toNat_append]
  simp

/-- Settles O42. -/
theorem statusRegistersShowTheirFields : Obligations.StatusRegistersShowTheirFields := by
  intro s
  refine ⟨getLsbD_statusWord s 0, busy_eq_false_iff s, getLsbD_statusWord s 1,
    (getLsbD_statusWord s 2).trans (err_eq_decide s), (getLsbD_statusWord s 3).trans (ksv_eq_isSome s),
    getLsbD_statusWord s 4, fun i hi => ?_, ?_, ?_⟩
  · rw [getLsbD_statusWord]
    exact List.getD_eq_default _ _ hi
  · rw [toNat_errcodeWord]
    cases s.errCode <;> rfl
  · rw [toNat_ksinfoWord, State.ksSizeBits]
    rcases s.ksSize with _ | k
    · rfl
    · cases k <;> rfl

/-- Settles O35: register by register. -/
theorem resetLeavesTheListedValues : Obligations.ResetLeavesTheListedValues := by
  refine ⟨fun r => ?_, rfl, rfl, rfl, rfl⟩
  cases r
  case key i => exact Vector.getElem_replicate _
  case iv i => exact Vector.getElem_replicate _
  case din i => exact Vector.getElem_replicate _
  case dout i => exact Vector.getElem_replicate _
  case rk j => exact Vector.getElem_replicate _
  all_goals decide

/-! ### Which steps change the operands (R29, R31, R33) and WIGN (R25) -/

/-- The registers a command takes its operands from, IV apart. -/
def State.operands (s : State) : Vector Word 8 × Vector Word 4 × Word × Word × Word :=
  (s.key, s.din, s.src, s.dst, s.len)

/-- The sequencer writes no operand register and leaves WIGN alone (R28, R175). -/
theorem sequence_frame {r : Run} {s t : State} (h : sequenceOf r.op r s = .next t) :
    t.operands = s.operands ∧ t.wign = s.wign := by
  obtain ⟨-, -, rfl⟩ | ⟨-, -, f, rfl⟩ | ⟨i, f, -, -, ⟨rfl, -⟩ | ⟨rfl, -⟩⟩ | ⟨-, rfl⟩ := sequence_cases h <;>
    exact ⟨rfl, rfl⟩

theorem TurnTo.frame {s t : State} (h : TurnTo s t) : t.operands = s.operands ∧ t.wign = s.wign := by
  cases h with
  | idle => exact ⟨rfl, rfl⟩
  | run _ _ _ hseq => exact sequence_frame hseq

theorem readReg_frame (r : Reg) (s : State) : (readReg r s).operands = s.operands ∧ (readReg r s).wign = s.wign := by
  obtain ⟨-, -, heq⟩ | ⟨-, heq⟩ := readReg_cases r s <;> rw [heq] <;> exact ⟨rfl, rfl⟩

/-- A submission, rejected or accepted, leaves WIGN as it is (R170, R171). -/
theorem submit_wign (op : Op) (kb : KeyBits) (check : KeySize → State → Option ErrorCode) (s : State) :
    (submit op kb check s).wign = s.wign := by
  obtain ⟨-, heq⟩ | ⟨k, e, -, -, heq⟩ | ⟨k, -, -, heq⟩ := submit_cases op kb check s <;> rw [heq] <;> rfl

/-- A write changes an operand register only while Idle (R43). -/
theorem WriteTo.operands_busy {s t : State} {r : Reg} {v : Word} (h : WriteTo s r v t) (hb : s.busy = true) :
    t.operands = s.operands := by
  obtain ⟨run, hs⟩ := (busy_eq_true_iff s).1 hb
  cases h with
  | readOnly | status | ignored => rfl
  | key _ _ hi | iv _ _ hi | din _ _ hi | src _ hi | dst _ hi | len _ hi | badCommand _ _ hi | command _ _ hi =>
    rw [hs] at hi
    cases hi

/-- While Idle no write but that of `STATUS` changes WIGN. -/
theorem WriteTo.wign_idle {s t : State} {r : Reg} {v : Word} (h : WriteTo s r v t) (hb : s.busy = false)
    (hr : r ≠ .status) : t.wign = s.wign := by
  cases h with
  | status => exact absurd rfl hr
  | ignored _ _ hb' => rw [hb] at hb'; cases hb'
  | command => exact submit_wign _ _ _ _
  | readOnly | key | iv | din | src | dst | len | badCommand => rfl

/-- A step changes an operand register or WIGN only at a register write of the host or at reset. -/
theorem step_frame {s t : State} (h : step s = .next t) :
    (t.operands = s.operands ∧ t.wign = s.wign) ∨ (∃ rest, s.moves = .reset :: rest ∧ t.wign = false) ∨
      ∃ r off v rest, regAt off = some r ∧ s.moves = .regWrite (s.platform.coreBase + off) 4 v :: rest ∧
        writeReg r v { s with moves := rest } = .next t := by
  cases step_cases h with
  | turn _ _ ht => exact .inl ht.frame
  | turnGiven rest _ _ ht => exact .inl ht.frame
  | regRead _ _ r rest => exact .inl (readReg_frame r { s with moves := rest })
  | regWrite addr size v r rest _ hm hw =>
    obtain ⟨off, rfl, rfl, hr⟩ := windowReg_eq_some hw
    exact .inr (.inr ⟨r, off, v, rest, hr, hm, (step_hostWrite hm hr).symm.trans h⟩)
  | reset rest hm => exact .inr (.inl ⟨rest, hm, rfl⟩)
  | memRead | memWrite | setRefused => exact .inl ⟨rfl, rfl⟩

/-- Settles O33. -/
theorem operandRegistersChangeOnlyByTheHost : Obligations.OperandRegistersChangeOnlyByTheHost := by
  intro s t hstep hne
  have hops : t.operands ≠ s.operands := by
    intro heq
    simp only [State.operands, Prod.mk.injEq] at heq
    obtain ⟨hkey, hdin, hsrc, hdst, hlen⟩ := heq
    rcases hne with h | h | h | h | h <;> exact h (by assumption)
  obtain ⟨heq, -⟩ | ⟨rest, hm, -⟩ | ⟨r, off, v, rest, -, hm, hw⟩ := step_frame hstep
  · exact absurd heq hops
  · exact .inr ⟨rest, hm⟩
  · refine .inl ⟨(busy_eq_false_iff s).1 (Bool.eq_false_iff.2 fun hb => hops ?_), _, _, v, rest, hm⟩
    exact (writeReg_cases hw).operands_busy hb

/-- Settles O44, by the kind of the register written. -/
theorem wignIsSticky : Obligations.WignIsSticky := by
  intro s t hstep hne
  obtain ⟨-, heq⟩ | ⟨rest, hm, hf⟩ | ⟨r, off, v, rest, hr, hm, hw⟩ := step_frame hstep
  · exact absurd heq hne
  · exact .inr ⟨hf, .inl ⟨rest, hm⟩⟩
  · obtain hk | hk | rfl := isData_or r
    · cases hb : s.busy with
      | true =>
        rw [writeReg_busy (s := { s with moves := rest }) hk hb] at hw
        cases hw
        exact .inl ⟨rfl, rfl, r, off, v, rest, hr, hk, hm⟩
      | false =>
        have hns : r ≠ .status := by
          rintro rfl
          simp [IsData] at hk
        exact absurd ((writeReg_cases hw).wign_idle hb hns) hne
    · rw [writeReg_readOnly hk] at hw
      cases hw
      exact absurd rfl hne
    · cases hw
      have hoff : off = 0x008 := by
        simpa [regOffset] using ((registerMapIsTheTable.1 .status off).2 ⟨by simp, hr⟩).symm
      subst hoff
      have hv : v.getLsbD 4 = true := by
        by_contra hv
        exact hne (by simp only [writeStatus_wign, Bool.eq_false_of_not_eq_true hv, Bool.not_false, Bool.and_true])
      exact .inr ⟨by simp only [writeStatus_wign, hv, Bool.not_true, Bool.and_false], .inr ⟨v, rest, hm, hv⟩⟩

end Sys2Proof.Machine
end

section
/-! PROOFS. Data in canonical form: memories (10_state.md R44) and block registers (R30 to R32). -/

namespace Sys2Proof.Machine

/-! ### Memories that read alike -/

/-- A memory that reads as a canonical one has a cell at or below its first cell. -/
theorem exists_le_of_readByte {k : Nat} {v : Byte} {m m' : Memory} (hm : Memory.wf ((k, v) :: m))
    (h : m'.readByte k = v) : ∃ c ∈ m', c.1 ≤ k := by
  by_contra hn
  have hlow : ∀ c ∈ m', k < c.1 := fun c hc => Nat.lt_of_not_le fun hle => hn ⟨c, hc, hle⟩
  exact (hm.2 (k, v) (by simp)).2 (h.symm.trans (readByte_of_lt hlow))

theorem Memory.wf.tail {c : Host.Cell} {m : Memory} (h : Memory.wf (c :: m)) : m.wf :=
  ⟨(List.pairwise_cons.1 h.1).2, fun d hd => h.2 d (List.mem_cons_of_mem c hd)⟩

/-- The first cell of a canonical memory is its lowest. -/
theorem Memory.wf.head_le {c : Host.Cell} {m : Memory} (h : Memory.wf (c :: m)) : ∀ d ∈ c :: m, c.1 ≤ d.1 := by
  intro d hd
  rcases List.mem_cons.1 hd with rfl | hd
  · exact Nat.le_refl _
  · exact Nat.le_of_lt ((List.pairwise_cons.1 h.1).1 d hd)

/-- The first cell of a canonical memory is not below that of another that reads alike. -/
theorem head_le_of_readByte_eq {k k' : Nat} {v v' : Byte} {m m' : Memory} (hm : Memory.wf ((k, v) :: m))
    (hm' : Memory.wf ((k', v') :: m')) (h : ∀ a, Memory.readByte ((k, v) :: m) a = Memory.readByte ((k', v') :: m') a) :
    k' ≤ k := by
  obtain ⟨c, hc, hle⟩ := exists_le_of_readByte hm ((h k).symm.trans (if_pos rfl))
  exact Nat.le_trans (hm'.head_le c hc) hle

/-- Settles O34, by induction on one memory: the first cells have the same address and byte, and the rests read alike. -/
theorem canonicalMemoriesAreExtensional : Obligations.CanonicalMemoriesAreExtensional := by
  intro m
  induction m with
  | nil =>
    intro m' _ hm' h
    cases m' with
    | nil => rfl
    | cons c m' =>
      obtain ⟨d, hd, -⟩ := exists_le_of_readByte hm' ((h c.1).trans (if_pos rfl))
      cases hd
  | cons c m ih =>
    intro m' hm hm' h
    obtain ⟨k, v⟩ := c
    cases m' with
    | nil =>
      obtain ⟨d, hd, -⟩ := exists_le_of_readByte hm ((h k).symm.trans (if_pos rfl))
      cases hd
    | cons c' m' =>
      obtain ⟨k', v'⟩ := c'
      obtain rfl : k = k' :=
        Nat.le_antisymm (head_le_of_readByte_eq hm' hm fun a => (h a).symm) (head_le_of_readByte_eq hm hm' h)
      obtain rfl : v = v' := by simpa using h k
      have hrest : ∀ a, Memory.readByte m a = Memory.readByte m' a := by
        intro a
        by_cases ha : a = k
        · subst ha
          rw [readByte_of_lt (List.pairwise_cons.1 hm.1).1, readByte_of_lt (List.pairwise_cons.1 hm'.1).1]
        · simpa [ha] using h a
      rw [ih m' hm.tail hm'.tail hrest]

/-! ### Blocks in registers -/

theorem getElem_blockOfWords (v : Vector Word 4) (i j : Nat) (hi : i < 4) (hj : j < 4) :
    (blockOfWords v)[4 * i + j] = byteOf v[i] j := by
  have hdiv : (4 * i + j) / 4 = i := by omega
  have hmod : (4 * i + j) % 4 = j := by omega
  simp only [blockOfWords, Vector.getElem_ofFn, hdiv, hmod]

theorem beNat_append (l l' : List Byte) : beNat (l ++ l') = beNat l * 2 ^ (8 * l'.length) + beNat l' := by
  induction l with
  | nil => simp [beNat]
  | cons b l ih =>
    rw [List.cons_append, beNat, beNat, ih, List.length_append, Nat.mul_add, Nat.pow_add]
    ring

/-- A word is the big-endian number of its four bytes (R10). -/
theorem toNat_be32 (b0 b1 b2 b3 : Byte) : (be32 b0 b1 b2 b3).toNat = beNat [b0, b1, b2, b3] := by
  have happ : ∀ {n : Nat} (x : BitVec n) (b : Byte), (x ++ b).toNat = x.toNat * 2 ^ 8 + b.toNat := by
    intro n x b
    rw [BitVec.toNat_append, ← Nat.shiftLeft_add_eq_or_of_lt b.isLt, Nat.shiftLeft_eq]
  simp only [be32, happ, beNat, List.length_cons, List.length_nil]
  omega

/-- The bytes of a word from the most significant (R10). -/
def bytesOf (w : Word) : List Byte := [byteOf w 0, byteOf w 1, byteOf w 2, byteOf w 3]

@[simp] theorem length_bytesOf (w : Word) : (bytesOf w).length = 4 := rfl

@[simp] theorem beNat_bytesOf (w : Word) : beNat (bytesOf w) = w.toNat := by
  rw [bytesOf, ← toNat_be32, be32_byteOf]

/-- The bytes of a block are those of its four registers, one after the other. -/
theorem toList_blockOfWords (v : Vector Word 4) :
    (blockOfWords v).toList = bytesOf v[0] ++ (bytesOf v[1] ++ (bytesOf v[2] ++ bytesOf v[3])) := by
  rw [blockOfWords, Vector.toList_ofFn]
  rfl

theorem be128_blockOfWords (v : Vector Word 4) : be128 (blockOfWords v) =
    v[0].toNat * 2 ^ 96 + v[1].toNat * 2 ^ 64 + v[2].toNat * 2 ^ 32 + v[3].toNat := by
  rw [be128, toList_blockOfWords]
  simp only [beNat_append, beNat_bytesOf, List.length_append, length_bytesOf]
  omega

theorem toNat_wordsOfBlock (b : Block) (i : Nat) (hi : i < 4) : (wordsOfBlock b)[i].toNat =
    b[4 * i].toNat * 2 ^ 24 + b[4 * i + 1].toNat * 2 ^ 16 + b[4 * i + 2].toNat * 2 ^ 8 + b[4 * i + 3].toNat := by
  simp only [wordsOfBlock, Vector.getElem_ofFn, toNat_be32, beNat, List.length_cons, List.length_nil]
  omega

/-- Settles O60. -/
theorem blockRegistersAreBigEndian : Obligations.BlockRegistersAreBigEndian :=
  ⟨getElem_blockOfWords, toNat_wordsOfBlock, be128_blockOfWords⟩

end Sys2Proof.Machine
end

section
/-! PROOFS. Message memory (20_memory.md R63 to R71): what a command's transition and a step leave of it, a refused request, and
the host's accesses to the window and to memory. -/

namespace Sys2Proof.Machine

/-! ### A mode command's block step (R177) -/

/-- The step of a mode command in `Block(i)` is the block step of one of the modes. -/
theorem exec_modeBlock {r : Run} {i : Nat} {s : State} (hs : s.seq = .run r)
    (hop : r.op = .cbce ∨ r.op = .cbcd ∨ r.op = .ctr) (hp : r.phase = .block i) :
    ∃ f, BlockFunction r.op f ∧ exec r.instr s = modeBlockStep f r i s := by
  rw [exec_running hs]
  rcases hop with h | h | h <;> rw [h] <;> simp only [sequenceOf, modeSequence, hp]
  · exact ⟨_, .cbce, rfl⟩
  · exact ⟨_, .cbcd, rfl⟩
  · exact ⟨_, .ctr, rfl⟩

/-- Settles O16: the two requests are asked for before anything is written. -/
theorem refusedRequestEndsInBusError : Obligations.RefusedRequestEndsInBusError := by
  intro s r i hs hop hp hsrc hdst hrefused
  obtain ⟨f, -, hexec⟩ := exec_modeBlock hs hop hp
  exact hexec.trans (modeBlockStep_refused hsrc hdst hrefused)

/-! ### What a transition leaves of memory (R64) -/

/-- The run `r` of a mode command, in `Block(i)`, turned memory `m` into `m'` by its 16 bytes at `dst + 16*i` (R177). -/
structure StoresBlock (r : Run) (i : Nat) (m m' : Memory) : Prop where
  mode : r.op = .cbce ∨ r.op = .cbcd ∨ r.op = .ctr
  phase : r.phase = .block i
  stored : ∃ b, m' = m.writeBlock (blockAddress r.dst i) b

theorem BlockFunction.op_cases {op : Op} {f : List Word → Nat → Block → Block → BlockResult} (h : BlockFunction op f) :
    op = .cbce ∨ op = .cbcd ∨ op = .ctr := by
  cases h <;> simp

/-- A byte outside the 16 bytes of the block reads as before. -/
theorem StoresBlock.readByte_apart {r : Run} {i : Nat} {m m' : Memory} (h : StoresBlock r i m m') (hm : m.wf) {a : Nat}
    (ha : a < blockAddress r.dst i ∨ blockAddress r.dst i + 16 ≤ a) : m'.readByte a = m.readByte a := by
  obtain ⟨b, rfl⟩ := h.stored
  rw [readByte_writeBlock hm.1, dif_neg (by omega)]

/-- The running command's step leaves memory as it is, or stores the block of the step. -/
theorem sequence_mem {r : Run} {s t : State} (h : sequenceOf r.op r s = .next t) :
    t.mem = s.mem ∨ ∃ i, StoresBlock r i s.mem t.mem := by
  obtain ⟨-, -, rfl⟩ | ⟨-, -, f, rfl⟩ | ⟨i, f, hp, hf, ⟨rfl, -⟩ | ⟨rfl, -⟩⟩ | ⟨-, rfl⟩ := sequence_cases h
  case inr.inr.inl.inr => exact .inr ⟨i, hf.op_cases, hp, _, finishBlock_mem ..⟩
  all_goals exact .inl rfl

/-- A command's transition leaves memory as it is, unless it is the running command's step and stores a block. -/
theorem exec_mem {c : Instr} {s t : State} (h : exec c s = .next t) :
    t.mem = s.mem ∨ ∃ r i, s.seq = .run r ∧ r.instr = c ∧ StoresBlock r i s.mem t.mem := by
  obtain ⟨-, ⟨e, rfl⟩ | ⟨k, rfl⟩⟩ | ⟨r, hs, hi, hseq⟩ | ⟨r, -, -, rfl⟩ := exec_cases h
  case inr.inl =>
    obtain heq | ⟨i, hst⟩ := sequence_mem hseq
    · exact .inl heq
    · exact .inr ⟨r, i, hs, hi, hst⟩
  all_goals exact .inl rfl

/-- Settles O19: a byte differs only where `exec_mem` gives a stored block. -/
theorem commandsStoreOnlyTheBlockOfTheStep : Obligations.CommandsStoreOnlyTheBlockOfTheStep := by
  intro c s t hm h
  obtain heq | ⟨r, i, hs, hi, hst⟩ := exec_mem h
  · exact ⟨fun _ _ _ _ _ _ a _ => heq ▸ rfl, fun _ a => heq ▸ rfl⟩
  · refine ⟨fun r' j hs' _ hp' _ a ha => ?_, fun hnone => ?_⟩
    · cases hs.symm.trans hs'
      cases hst.phase.symm.trans hp'
      exact hst.readByte_apart hm ha
    · have hop : c.op = r.op := by rw [← hi, Run.instr, op_instr]
      exact absurd (hop ▸ hst.mode) (hnone r i hs hi hst.phase)

/-- The sequencer's turn leaves memory as it is, or stores the block of the running command's step. -/
theorem TurnTo.mem {s t : State} (h : TurnTo s t) :
    t.mem = s.mem ∨ ∃ r i, s.seq = .run r ∧ StoresBlock r i s.mem t.mem := by
  cases h with
  | idle => exact .inl rfl
  | run r _ hs hseq => exact (sequence_mem hseq).imp_right fun ⟨i, hst⟩ => ⟨r, i, hs, hst⟩

theorem readReg_mem (r : Reg) (s : State) : (readReg r s).mem = s.mem := by
  obtain ⟨-, -, heq⟩ | ⟨-, heq⟩ := readReg_cases r s <;> rw [heq]

theorem submit_mem (op : Op) (kb : KeyBits) (check : KeySize → State → Option ErrorCode) (s : State) :
    (submit op kb check s).mem = s.mem := by
  obtain ⟨-, heq⟩ | ⟨k, e, -, -, heq⟩ | ⟨k, -, -, heq⟩ := submit_cases op kb check s <;> rw [heq] <;> rfl

/-- No register write touches memory, the submission of a command included (R170). -/
theorem WriteTo.mem {s t : State} {r : Reg} {v : Word} (h : WriteTo s r v t) : t.mem = s.mem := by
  cases h with
  | command => exact submit_mem _ _ _ _
  | readOnly | status | ignored | key | iv | din | src | dst | len | badCommand => rfl

/-- A step leaves memory as it is, writes the bytes of the host's move, or is the sequencer's turn and stores a block. -/
theorem step_mem {s t : State} (h : step s = .next t) :
    t.mem = s.mem ∨
    (∃ b bytes rest, s.moves = .memWrite b bytes :: rest ∧ t.mem = s.mem.writeBytes b bytes) ∨
    ∃ r i, s.seq = .run r ∧ StoresBlock r i s.mem t.mem ∧ (s.moves = [] ∨ ∃ rest, s.moves = .sequencer :: rest) := by
  cases step_cases h with
  | turn _ hnil ht => exact ht.mem.imp_right fun ⟨r, i, hs, hst⟩ => .inr ⟨r, i, hs, hst, .inl hnil⟩
  | turnGiven rest _ hm ht => exact ht.mem.imp_right fun ⟨r, i, hs, hst⟩ => .inr ⟨r, i, hs, hst, .inr ⟨rest, hm⟩⟩
  | regRead _ _ r rest => exact .inl (readReg_mem r { s with moves := rest })
  | regWrite _ _ _ _ _ _ _ _ hw => exact .inl hw.mem
  | memWrite b bytes rest hm => exact .inr (.inl ⟨b, bytes, rest, hm, rfl⟩)
  | memRead | reset | setRefused => exact .inl rfl

/-- Settles O32: of the bytes a step writes, the one at `a` is among those the move or the block step names. -/
theorem memoryChangesOnlyByHostOrBlockStep : Obligations.MemoryChangesOnlyByHostOrBlockStep := by
  intro s t a hm h hne
  obtain heq | ⟨b, bytes, rest, hmove, heq⟩ | ⟨r, i, hs, hst, hturn⟩ := step_mem h
  · exact absurd (heq ▸ rfl) hne
  · have hin : b ≤ a ∧ a < b + bytes.length := by
      by_contra hout
      exact hne (by rw [heq, readByte_writeBytes hm.1, if_neg hout])
    exact .inl ⟨b, bytes, rest, hmove, hin⟩
  · have hin : ¬ (a < blockAddress r.dst i ∨ blockAddress r.dst i + 16 ≤ a) := fun hout =>
      hne (hst.readByte_apart hm hout)
    exact .inr ⟨r, i, hs, hst.mode, hst.phase, by omega, by omega, hturn⟩

/-! ### The host's accesses to the window (R63) -/

/-- An access that reaches no register: another width, outside the window, or off the 4-byte grid (R63). -/
theorem windowReg_eq_none_iff (p : Platform) (addr size : Nat) : windowReg p addr size = none ↔
    (size ≠ 4 ∨ addr < p.coreBase ∨ p.coreBase + 0x200 ≤ addr ∨ (addr - p.coreBase) % 4 ≠ 0) := by
  unfold windowReg
  split
  · rw [regAt_eq_none_iff]
    omega
  · exact iff_of_true rfl (by omega)

/-- A write of any register answers a next state: an Idle core takes every submission, a BUSY one ignores it (R43, R170). -/
theorem writeReg_next (r : Reg) (v : Word) (s : State) : ∃ t, writeReg r v s = .next t := by
  by_cases hr : r = .cmd
  · subst hr
    cases hb : s.busy with
    | true => exact ⟨_, writeReg_busy (.inl rfl) hb v⟩
    | false =>
      have hi : s.seq = .idle := (busy_eq_false_iff s).1 hb
      have hw : writeReg .cmd v s = submitWord v { s with cmd := v } := if_neg (by simp [hb])
      rw [hw, submitWord]
      cases decodeInstr v with
      | ok i => exact ⟨_, exec_idle (s := { s with cmd := v }) hi⟩
      | error e => exact ⟨_, rfl⟩
  · exact writeReg_not_cmd hr v s

/-- Settles O38: a refused access is one that reaches no register. -/
theorem onlyAlignedWordAccessesAreAdmitted : Obligations.OnlyAlignedWordAccessesAreAdmitted := by
  intro s addr size v rest
  refine ⟨fun hout => ?_, fun hin => ?_⟩
  · have hnone := (windowReg_eq_none_iff s.platform addr size).2 hout
    constructor <;> intro hm <;> simp only [step_cons hm, takeMove, hnone]
  · have hsome : windowReg s.platform addr size ≠ none := fun h => by
      have := (windowReg_eq_none_iff s.platform addr size).1 h
      omega
    obtain ⟨r, hr⟩ := Option.ne_none_iff_exists'.1 hsome
    refine ⟨fun hm => ⟨readReg r { s with moves := rest }, ?_⟩, fun hm => ?_⟩
    · simp only [step_cons hm, takeMove, hr]
    · simp only [step_cons hm, takeMove, hr]
      exact writeReg_next r v _

/-! ### The host's accesses to memory (R44, R71) -/

/-- While BUSY a write that touches a message buffer is refused (R71 (e)). -/
theorem writeMemory_refused {a : Nat} {bytes : List Byte} {s : State} (hin : a + bytes.length ≤ memorySize)
    (hb : s.busy = true) (hbuf : ∃ j, j < bytes.length ∧ inBuffers s (a + j) = true) :
    writeMemory a bytes s = .refused .hostWriteToBusyBuffer := by
  have hany : ((List.range bytes.length).any fun j => inBuffers s (a + j)) = true := by
    simpa only [List.any_eq_true, List.mem_range] using hbuf
  simp only [writeMemory, (insideMemory_iff a bytes.length).2 hin, hb, hany]
  rfl

/-- Every other write inside memory stores its bytes. -/
theorem writeMemory_done {a : Nat} {bytes : List Byte} {s : State} (hin : a + bytes.length ≤ memorySize)
    (h : s.busy = false ∨ ∀ j, j < bytes.length → inBuffers s (a + j) = false) :
    writeMemory a bytes s = .next { s with mem := s.mem.writeBytes a bytes } := by
  have hfree : (s.busy && (List.range bytes.length).any fun j => inBuffers s (a + j)) = false := by
    rcases h with hb | hbuf
    · rw [hb, Bool.false_and]
    · rw [List.any_eq_false.2 fun j hj => by simp [hbuf j (List.mem_range.1 hj)], Bool.and_false]
  simp only [writeMemory, (insideMemory_iff a bytes.length).2 hin, hfree]
  rfl

/-- The byte the host gets outside the buffers, or from an Idle core, is the one in memory. -/
theorem hostByte_exact {s : State} {a : Nat} (h : s.busy = false ∨ inBuffers s a = false) (draw : Nat) :
    hostByte s a draw = s.mem.readByte a := by
  rcases h with h | h <;> simp [hostByte, h]

theorem readMemory_next {a n : Nat} (hin : a + n ≤ memorySize) (s : State) :
    readMemory a n s = .next { s with
      lastMemRead := (List.range n).map fun j => hostByte s (a + j) (s.draws + j)
      draws := s.draws + n } :=
  if_pos ((insideMemory_iff a n).2 hin)

/-- Settles O45: `SRC`, `LEN`, `DST` and BUSY, which decide what the move may do, are not changed by taking it. -/
theorem hostMemoryMovesRespectTheBuffers : Obligations.HostMemoryMovesRespectTheBuffers := by
  intro s a rest
  refine ⟨fun bytes hin hm => ?_, fun n hin hm => ?_⟩
  · rw [step_cons hm]
    exact ⟨fun ⟨hb, hbuf⟩ => writeMemory_refused (s := { s with moves := rest }) hin hb hbuf,
      writeMemory_done (s := { s with moves := rest }) hin⟩
  · rw [step_cons hm]
    refine ⟨_, readMemory_next hin { s with moves := rest }, rfl, by simp, fun j hj hexact => ?_⟩
    rw [List.getElem?_map, List.getElem?_range hj, Option.map_some,
      hostByte_exact (s := { s with moves := rest }) hexact]

end Sys2Proof.Machine
end

section
/-! PROOFS. The command word (30_encoding.md R80 to R88): its three fields give the word back, so `encode` and `decodeInstr` are
inverse, and the verdict of R87 is read off the numbers of the fields. -/

namespace Sys2Proof

open Machine

/-! ### The opcode map (R83, R86) -/

@[simp] theorem opOf_code (op : Op) : opOf op.code = some op := by cases op <;> rfl

theorem opOf_eq_some {code : BitVec 4} {op : Op} (h : opOf code = some op) : code = op.code := by
  unfold opOf at h
  repeat' split at h
  all_goals cases h
  all_goals assumption

/-- The reserved OP values are 0x0 and 0x7 to 0xF. -/
theorem opOf_eq_none_iff (code : BitVec 4) : opOf code = none ↔ code.toNat = 0 ∨ 7 ≤ code.toNat := by
  decide +revert

/-! ### The fields of a word (R81) -/

/-- The fields, side by side, are the whole word: no bit of it is outside them. -/
theorem append_fields (c : Word) : keyBitsField c ++ rsvdField c ++ opField c = c := by
  apply BitVec.eq_of_getLsbD_eq
  intro j hj
  simp only [keyBitsField, rsvdField, opField, BitVec.getLsbD_append, BitVec.getLsbD_extractLsb']
  by_cases h4 : j < 4
  · simp [h4]
  · by_cases h16 : j - 4 < 12
    · simp [h4, h16, Nat.add_sub_of_le (Nat.le_of_not_lt h4)]
    · have hj' : 16 + (j - 4 - 12) = j := by omega
      simp [h4, h16, hj', show j - 4 - 12 < 16 by omega]

theorem toNat_opField (c : Word) : (opField c).toNat = c.toNat % 16 := by
  simp [opField, BitVec.extractLsb'_toNat]

theorem toNat_rsvdField (c : Word) : (rsvdField c).toNat = c.toNat / 16 % 4096 := by
  simp [rsvdField, BitVec.extractLsb'_toNat, Nat.shiftRight_eq_div_pow]

theorem keyBitsField_eq_ofNat (c : Word) : keyBitsField c = BitVec.ofNat 16 (c.toNat / 65536) := by
  rw [keyBitsField, BitVec.extractLsb', Nat.shiftRight_eq_div_pow]

theorem rsvdField_eq_zero_iff (c : Word) : rsvdField c = 0 ↔ c.toNat / 16 % 4096 = 0 := by
  rw [← toNat_rsvdField, ← BitVec.toNat_inj]
  rfl

/-- The legal KEYBITS values, on the number of the field (R82). -/
theorem legalKeyBits_ofNat_iff {n : Nat} (hn : n < 65536) :
    legalKeyBits (BitVec.ofNat 16 n) = true ↔ n ∈ [128, 192, 256] := by
  have heq : ∀ m, m < 65536 → (BitVec.ofNat 16 n = BitVec.ofNat 16 m ↔ n = m) := by
    intro m hm
    rw [← BitVec.toNat_inj, BitVec.toNat_ofNat, BitVec.toNat_ofNat, Nat.mod_eq_of_lt hn, Nat.mod_eq_of_lt hm]
  simp only [legalKeyBits, Bool.or_eq_true, beq_iff_eq, List.mem_cons, List.not_mem_nil, or_false, or_assoc]
  exact or_congr (heq 128 (by decide)) (or_congr (heq 192 (by decide)) (heq 256 (by decide)))

/-! ### `decodeInstr` and `encode` -/

theorem decodeInstr_of_fields {c : Word} {op : Op} (hr : rsvdField c = 0) (hop : opField c = op.code) :
    decodeInstr c = .ok (op.instr (keyBitsField c)) := by
  rw [decodeInstr, if_pos hr, hop, opOf_code]

/-- Check 1 of R202: a word with RSVD not 0 or a reserved OP names no command (R85, R86). -/
theorem decodeInstr_invalid {c : Word} (h : rsvdField c ≠ 0 ∨ opOf (opField c) = none) :
    decodeInstr c = .error .invalidCommand := by
  rw [decodeInstr]
  split
  · rename_i hr
    rw [h.resolve_left (not_not_intro hr)]
  · rfl

/-- Every word names no command, by check 1, or its operation with its KEYBITS. -/
theorem decodeInstr_cases (c : Word) :
    decodeInstr c = .error .invalidCommand ∨
    ∃ op : Op, rsvdField c = 0 ∧ opField c = op.code ∧ decodeInstr c = .ok (op.instr (keyBitsField c)) := by
  by_cases hr : rsvdField c = 0
  · cases hop : opOf (opField c) with
    | none => exact .inl (decodeInstr_invalid (.inr hop))
    | some op => exact .inr ⟨op, hr, opOf_eq_some hop, decodeInstr_of_fields hr (opOf_eq_some hop)⟩
  · exact .inl (decodeInstr_invalid (.inl hr))

/-- The command of the word of a command (R81, R88). -/
@[simp] theorem decodeInstr_encode (i : Instr) : decodeInstr (encode i) = .ok i := by
  obtain ⟨hop, hr, hkb⟩ : Laws.EncodedFields.Statement i := Laws.fields_of_append i.keyBits i.op.code
  rw [decodeInstr_of_fields hr hop, hkb, instr_op_keyBits]

/-- A word names a command exactly when it is that command's word (R80). -/
theorem decodeInstr_eq_ok_iff (c : Word) (i : Instr) : decodeInstr c = .ok i ↔ encode i = c := by
  refine ⟨fun h => ?_, fun h => h ▸ decodeInstr_encode i⟩
  obtain herr | ⟨op, hr, hop, hok⟩ := decodeInstr_cases c
  · rw [herr] at h
    cases h
  · rw [hok] at h
    cases h
    rw [encode, keyBits_instr, op_instr, ← hr, ← hop, append_fields]

/-! ### The verdict (R87) -/

theorem decode_invalid {c : Word} (h : decodeInstr c = .error .invalidCommand) : decode c = .error .invalidCommand := by
  rw [decode, h]

/-- Check 2 of R202, on a word that names a command. -/
theorem decode_of_decodeInstr {c : Word} {i : Instr} (h : decodeInstr c = .ok i) :
    decode c = if i.wellFormed then .ok i else .error .invalidKeySize := by
  rw [decode, h]

/-- Settles O1: the fields of the word are what `encode` put there, and the verdict asks for the key size alone. -/
theorem decodeUndoesEncode : Obligations.DecodeUndoesEncode := by
  intro i
  rw [decode_of_decodeInstr (decodeInstr_encode i)]
  exact ⟨decodeInstr_encode i, fun h => if_pos h, fun h => if_neg (Bool.eq_false_iff.1 h)⟩

/-- Settles O2: no bit of the word is outside the fields. -/
theorem encodeUndoesDecode : Obligations.EncodeUndoesDecode :=
  fun c i => (decodeInstr_eq_ok_iff c i).1

/-- The verdict on a word whose OP names an operation, on the numbers of its fields. -/
theorem decode_of_opcode {c : Word} {op : Op} (hr : c.toNat / 16 % 4096 = 0) (hop : c.toNat % 16 = op.code.toNat) :
    decode c = if c.toNat / 65536 ∈ [128, 192, 256] then .ok (op.instr (BitVec.ofNat 16 (c.toNat / 65536)))
      else .error .invalidKeySize := by
  have hok := decodeInstr_of_fields ((rsvdField_eq_zero_iff c).2 hr) (BitVec.eq_of_toNat_eq ((toNat_opField c).trans hop))
  have hlt : c.toNat / 65536 < 65536 := by omega
  rw [decode_of_decodeInstr hok, keyBitsField_eq_ofNat, Instr.wellFormed, keyBits_instr]
  simp only [legalKeyBits_ofNat_iff hlt]

/-- Settles O3, in the order of R87's tests. -/
theorem decodeGivesTheVerdictOfEveryWord : Obligations.DecodeGivesTheVerdictOfEveryWord := by
  intro c
  refine ⟨fun h => ?_, fun hr hlo hhi => ⟨fun hkb => ?_, fun hkb => ?_⟩⟩
  · rw [← toNat_opField, ← opOf_eq_none_iff, ne_eq, ← rsvdField_eq_zero_iff] at h
    exact decode_invalid (decodeInstr_invalid h)
  · obtain ⟨op, hop⟩ : ∃ op, opOf (opField c) = some op := by
      rw [← Option.ne_none_iff_exists', ne_eq, opOf_eq_none_iff, toNat_opField]
      omega
    rw [decode_of_opcode hr ((toNat_opField c).symm.trans (congrArg _ (opOf_eq_some hop))), if_neg hkb]
  · have hok : ∀ op : Op, c.toNat % 16 = op.code.toNat → decode c = .ok (op.instr (BitVec.ofNat 16 (c.toNat / 65536))) :=
      fun op hop => (decode_of_opcode hr hop).trans (if_pos hkb)
    exact ⟨hok .expand, hok .encb, hok .decb, hok .cbce, hok .cbcd, hok .ctr⟩

/-! ### The table of R88 -/

/-- The legal words as R88's table is laid out: a row per operation, a column per key size. -/
def legalWords : List Word :=
  [Op.expand, .encb, .decb, .cbce, .cbcd, .ctr].flatMap fun op =>
    [KeySize.k128, .k192, .k256].map fun k => encode (op.instr k.bits)

theorem mem_legalWords_iff (c : Word) : c ∈ legalWords ↔ ∃ op : Op, ∃ k : KeySize, encode (op.instr k.bits) = c := by
  have hop : ∀ op : Op, op ∈ [Op.expand, .encb, .decb, .cbce, .cbcd, .ctr] := by intro op; cases op <;> decide
  have hk : ∀ k : KeySize, k ∈ [KeySize.k128, .k192, .k256] := by intro k; cases k <;> decide
  simp only [legalWords, List.mem_flatMap, List.mem_map, hop, hk, true_and]

/-- A command is well formed when its KEYBITS names a key size (R82). -/
theorem wellFormed_iff (i : Instr) : i.wellFormed = true ↔ ∃ op : Op, ∃ k : KeySize, op.instr k.bits = i := by
  constructor
  · intro h
    obtain ⟨k, hk⟩ : ∃ k, keySizeOf i.keyBits = some k := by
      rw [← Option.ne_none_iff_exists', ne_eq, keySizeOf_eq_none_iff]
      simpa [Instr.wellFormed] using h
    exact ⟨i.op, k, by rw [← keySizeOf_eq_some hk, instr_op_keyBits]⟩
  · rintro ⟨op, k, rfl⟩
    rw [Instr.wellFormed, keyBits_instr]
    cases k <;> rfl

/-- A word is a legal command exactly when it is the word of a well-formed one. -/
theorem decode_eq_ok_iff (c : Word) (i : Instr) : decode c = .ok i ↔ encode i = c ∧ i.wellFormed = true := by
  rw [← decodeInstr_eq_ok_iff]
  obtain herr | ⟨op, -, -, hok⟩ := decodeInstr_cases c
  · simp [decode_invalid herr, herr]
  · rw [decode_of_decodeInstr hok, hok]
    split
    · rename_i hwf
      exact ⟨fun h => ⟨h, by cases h; exact hwf⟩, fun h => h.1⟩
    · rename_i hwf
      exact ⟨nofun, fun ⟨h, hi⟩ => by cases h; exact absurd hi hwf⟩

/-- Settles O4: the legal words are those of the well-formed commands, and R88's table is `legalWords` written out. -/
theorem legalWordsAreTheEighteen : Obligations.LegalWordsAreTheEighteen := by
  intro c
  show (∃ i, decode c = .ok i) ↔ c ∈ legalWords
  rw [mem_legalWords_iff]
  simp only [decode_eq_ok_iff, wellFormed_iff]
  constructor
  · rintro ⟨_, rfl, op, k, rfl⟩
    exact ⟨op, k, rfl⟩
  · rintro ⟨op, k, rfl⟩
    exact ⟨_, rfl, op, k, rfl⟩

/-- Settles O5, by running the decoder. -/
theorem wordsOfTheTableDecode : Obligations.WordsOfTheTableDecode := by
  unfold Obligations.WordsOfTheTableDecode
  decide

end Sys2Proof
end

section
/-! PROOFS. What a command's transitions may write (30_encoding.md R84; 10_state.md R28, R39). -/

namespace Sys2Proof.Machine

/-- `t` agrees with `s` on what no command's transition writes: the operand registers, IV apart, and what is outside the core. -/
structure SameInputs (s t : State) : Prop where
  cmd : t.cmd = s.cmd
  key : t.key = s.key
  din : t.din = s.din
  src : t.src = s.src
  dst : t.dst = s.dst
  len : t.len = s.len
  platform : t.platform = s.platform
  moves : t.moves = s.moves
  lastRead : t.lastRead = s.lastRead
  lastMemRead : t.lastMemRead = s.lastMemRead
  draws : t.draws = s.draws

/-- `t` differs from `s` only in what operation `op` writes by R84, the flags apart; BLKCNT counts blocks only in a run (R28). -/
structure CommandFrame (op : Op) (s t : State) : Prop where
  inputs : SameInputs s t
  dout : op ≠ .encb → op ≠ .decb → t.dout = s.dout
  message : op ≠ .cbce → op ≠ .cbcd → op ≠ .ctr → t.iv = s.iv ∧ t.mem = s.mem
  schedule : op = .encb ∨ op = .decb → t.rk = s.rk ∧ t.ksSize = s.ksSize
  count : s.seq ≠ .idle → op ≠ .cbce → op ≠ .cbcd → op ≠ .ctr → t.blkCnt = s.blkCnt

/-- A transition that writes the flags and the sequencer alone, BLKCNT cleared at acceptance, is within every command's frame. -/
theorem CommandFrame.of_flags {s t : State} (op : Op) (hb : s.seq ≠ .idle → t.blkCnt = s.blkCnt)
    (hs : SameInputs s t := by constructor <;> rfl) (hd : t.dout = s.dout := by rfl)
    (hiv : t.iv = s.iv := by rfl) (hm : t.mem = s.mem := by rfl) (hr : t.rk = s.rk := by rfl)
    (hk : t.ksSize = s.ksSize := by rfl) : CommandFrame op s t where
  inputs := hs
  dout := fun _ _ => hd
  message := fun _ _ _ => ⟨hiv, hm⟩
  schedule := fun _ => ⟨hr, hk⟩
  count := fun hrun _ _ _ => hb hrun

/-- The key expansion is for the commands that build a schedule, not for ENCB and DECB (R126, R179). -/
theorem commandFrame_expandPhase {r : Run} (s : State) (hb : buildsSchedule r.op = true) :
    CommandFrame r.op s (expandPhase r s) where
  inputs := by constructor <;> rfl
  dout := fun _ _ => rfl
  message := fun _ _ _ => ⟨rfl, rfl⟩
  schedule := by rintro (h | h) <;> rw [h] at hb <;> cases hb
  count := fun _ _ _ _ => rfl

/-- The single block step writes DOUT, for ENCB and DECB (R160, R161). -/
theorem commandFrame_singleBlockStep {r : Run} (f : List Word → Nat → Block → Block) (s : State)
    (hop : r.op = .encb ∨ r.op = .decb) : CommandFrame r.op s (singleBlockStep f r s) where
  inputs := by constructor <;> rfl
  dout := fun he hd => (hop.elim he hd).elim
  message := fun _ _ _ => ⟨rfl, rfl⟩
  schedule := fun _ => ⟨rfl, rfl⟩
  count := fun _ _ _ _ => rfl

/-- A finished block writes memory, IV and BLKCNT, for the mode commands (R177). -/
theorem commandFrame_finishBlock {r : Run} (b : BlockResult) (i : Nat) (s : State)
    (hop : r.op = .cbce ∨ r.op = .cbcd ∨ r.op = .ctr) : CommandFrame r.op s (finishBlock b r i s) where
  inputs := by constructor <;> rfl
  dout := fun _ _ => rfl
  message := fun he hd hc => (hop.elim he fun h => h.elim hd hc).elim
  schedule := fun _ => ⟨rfl, rfl⟩
  count := fun _ he hd hc => (hop.elim he fun h => h.elim hd hc).elim

/-- The sequencer's step of a running command stays within the command's frame. -/
theorem sequence_commandFrame {r : Run} {s t : State} (h : sequenceOf r.op r s = .next t) : CommandFrame r.op s t := by
  obtain ⟨-, hb, rfl⟩ | ⟨-, hop, f, rfl⟩ | ⟨i, f, -, hf, ⟨rfl, -⟩ | ⟨rfl, -⟩⟩ | ⟨-, rfl⟩ := sequence_cases h
  · exact commandFrame_expandPhase s hb
  · exact commandFrame_singleBlockStep f s hop
  · exact .of_flags _ fun _ => rfl
  · exact commandFrame_finishBlock _ i s hf.op_cases
  · exact .of_flags _ fun _ => rfl

/-- Every transition of a command stays within the command's frame. -/
theorem exec_commandFrame {i : Instr} {s t : State} (h : exec i s = .next t) : CommandFrame i.op s t := by
  obtain ⟨hi, ⟨e, rfl⟩ | ⟨k, rfl⟩⟩ | ⟨r, -, rfl, hseq⟩ | ⟨r, -, -, rfl⟩ := exec_cases h
  · exact .of_flags _ fun _ => rfl
  · exact .of_flags _ fun hrun => absurd hi hrun
  · rw [Run.instr, op_instr]
    exact sequence_commandFrame hseq
  · exact .of_flags _ fun _ => rfl

/-- A transition leaves WIGN alone, unless it is a submission that another running command makes ignored (R43). -/
theorem exec_wign {i : Instr} {s t : State} (h : exec i s = .next t) :
    t.wign = s.wign ∨ ∃ r, s.seq = .run r ∧ r.instr ≠ i := by
  obtain ⟨-, ⟨e, rfl⟩ | ⟨k, rfl⟩⟩ | ⟨r, -, -, hseq⟩ | ⟨r, hs, hne, -⟩ := exec_cases h
  · exact .inl rfl
  · exact .inl rfl
  · exact .inl (sequence_frame hseq).2
  · exact .inr ⟨r, hs, hne⟩

/-- Settles O18: the frame of the operation, and WIGN. -/
theorem commandsWriteOnlyTheirOwnRegisters : Obligations.CommandsWriteOnlyTheirOwnRegisters := by
  intro i s t h
  obtain ⟨hin, hdout, hmsg, hsched, hcount⟩ := exec_commandFrame h
  obtain ⟨hcmd, hkey, hdin, hsrc, hdst, hlen, hplat, hmoves, hread, hmread, hdraws⟩ := hin
  exact ⟨⟨hcmd, hkey, hdin, hsrc, hdst, hlen, hplat, hmoves, hread, hmread, hdraws⟩, hdout, hmsg, hsched, hcount,
    (exec_wign h).resolve_left⟩

end Sys2Proof.Machine
end

section
/-! PROOFS. The field and its tables (40_primitives.md R101 to R106): multiplication by `x`, the laws of the product, the inverse as
a power, the S-box as the affine map of the inverse, and the inverse table. -/

namespace Sys2Proof.Machine

/-! ### Multiplication by `x` (R102) -/

theorem toNat_xtime (a : Byte) :
    (xtime a).toNat = (if 128 ≤ a.toNat then (2 * a.toNat) ^^^ 0x11B else 2 * a.toNat) % 2 ^ 8 := by
  have ha : a.toNat < 256 := a.isLt
  have hdouble : (a.setWidth 9 <<< 1).toNat = 2 * a.toNat := by
    rw [BitVec.toNat_shiftLeft, BitVec.toNat_setWidth, Nat.shiftLeft_eq]
    omega
  rw [xtime, BitVec.toNat_setWidth, BitVec.toNat_xor, hdouble, BitVec.msb_eq_decide]
  by_cases h : 128 ≤ a.toNat <;> simp [h]

/-- Bit 8 of the double is set, and the exclusive-or with `0x11B` clears it. -/
theorem double_xor_lt {n : Nat} (hlo : 128 ≤ n) (hhi : n < 256) : (2 * n) ^^^ 0x11B < 2 ^ 8 := by
  have hbit : 2 * n / 2 ^ 8 = 1 := by omega
  have hquot : ((2 * n) ^^^ 0x11B) / 2 ^ 8 = 0 := by
    rw [← Nat.shiftRight_eq_div_pow, Nat.shiftRight_xor_distrib, Nat.shiftRight_eq_div_pow, hbit]
    rfl
  omega

/-- Settles O46, by bit 7 of the byte: either way the number in the rule is a byte already. -/
theorem xtimeDoublesModuloTheField : Obligations.XtimeDoublesModuloTheField := by
  refine ⟨fun a => ?_, by decide, by decide, by decide, by decide⟩
  rw [toNat_xtime]
  apply Nat.mod_eq_of_lt
  split
  case isTrue h => exact double_xor_lt h a.isLt
  case isFalse h => omega

theorem xtime_xor (a b : Byte) : xtime (a ^^^ b) = xtime a ^^^ xtime b := by
  have hreduce : ∀ m n : Bool, (if m ^^ n then 0x11B else 0 : BitVec 9) =
      (if m then 0x11B else 0) ^^^ (if n then 0x11B else 0) := by decide
  simp only [xtime, BitVec.msb_xor, hreduce, BitVec.setWidth_xor, BitVec.shiftLeft_xor_distrib]
  ac_rfl

/-! ### The laws of the product (R101) -/

/-- A map that is additive and commutes with `xtime` goes through the loop of R101, and so through the product. -/
theorem map_gmul {f : Byte → Byte} (hadd : ∀ x y, f (x ^^^ y) = f x ^^^ f y) (hx : ∀ x, f (xtime x) = xtime (f x))
    (a b : Byte) : f (gmul a b) = gmul (f a) b := by
  have hzero : f 0 = 0 := by simpa using hadd 0 0
  have hturn : ∀ (pa : Byte × Byte) (i : Nat), gmulTurn b (pa.map f f) i = (gmulTurn b pa i).map f f := by
    intro pa i
    simp only [gmulTurn, Prod.map_fst, Prod.map_snd, Prod.map_apply, apply_ite f, hadd, hx]
  have hloop := List.foldl_hom (Prod.map f f) hturn (l := List.range 8) (init := (0, a))
  rw [Prod.map_apply, hzero] at hloop
  exact (congrArg Prod.fst hloop).symm

theorem foldl_gmulTurn_xor (c : Byte) (l : List Nat) (p q a b : Byte) :
    (l.foldl (gmulTurn c) (p ^^^ q, a ^^^ b)).1 =
      (l.foldl (gmulTurn c) (p, a)).1 ^^^ (l.foldl (gmulTurn c) (q, b)).1 := by
  induction l generalizing p q a b with
  | nil => rfl
  | cons i l ih =>
    have hsum : p ^^^ q ^^^ (a ^^^ b) = (p ^^^ a) ^^^ (q ^^^ b) := by ac_rfl
    simp only [List.foldl_cons, gmulTurn, xtime_xor, hsum]
    split <;> exact ih _ _ _ _

theorem gmul_xor_left (a b c : Byte) : gmul (a ^^^ b) c = gmul a c ^^^ gmul b c :=
  foldl_gmulTurn_xor c (List.range 8) 0 0 a b

theorem gmul_xtime_left (a b : Byte) : gmul (xtime a) b = xtime (gmul a b) :=
  (map_gmul xtime_xor (fun _ => rfl) a b).symm

@[simp] theorem one_gmul (b : Byte) : gmul 1 b = b := by decide +revert

/-- Multiplication by `b` goes through the product `1 • a`. -/
theorem gmul_comm (a b : Byte) : gmul a b = gmul b a :=
  calc gmul a b = gmul (gmul 1 a) b := by rw [one_gmul]
    _ = gmul (gmul 1 b) a := map_gmul (f := (gmul · b)) (gmul_xor_left · · b) (gmul_xtime_left · b) 1 a
    _ = gmul b a := by rw [one_gmul]

@[simp] theorem gmul_one (a : Byte) : gmul a 1 = a := by rw [gmul_comm, one_gmul]

theorem gmul_xor (a b c : Byte) : gmul a (b ^^^ c) = gmul a b ^^^ gmul a c := by
  rw [gmul_comm, gmul_xor_left, gmul_comm b, gmul_comm c]

theorem gmul_xtime (a b : Byte) : gmul a (xtime b) = xtime (gmul a b) := by
  rw [gmul_comm, gmul_xtime_left, gmul_comm]

@[simp] theorem gmul_zero (a : Byte) : gmul a 0 = 0 := by simpa using gmul_xor a 0 0

theorem gmul_assoc (a b c : Byte) : gmul (gmul a b) c = gmul a (gmul b c) :=
  (map_gmul (gmul_xor a) (gmul_xtime a) b c).symm

theorem two_gmul (a : Byte) : gmul 0x02 a = xtime a :=
  calc gmul 0x02 a = gmul (xtime 1) a := rfl
    _ = xtime a := by rw [gmul_xtime_left, one_gmul]

/-- Settles O47. -/
theorem fieldMultiplicationLaws : Obligations.FieldMultiplicationLaws :=
  ⟨gmul_comm, gmul_assoc, gmul_xor, gmul_one, gmul_zero, two_gmul, by decide, by decide⟩

/-! ### The inverse as a power (R103) -/

/-- The square of a byte in the field. -/
def square (a : Byte) : Byte := gmul a a

theorem square_xor (a b : Byte) : square (a ^^^ b) = square a ^^^ square b :=
  calc square (a ^^^ b) = square a ^^^ square b ^^^ (gmul a b ^^^ gmul a b) := by
        simp only [square, gmul_xor, gmul_xor_left, gmul_comm b a]
        ac_rfl
    _ = square a ^^^ square b := by simp

theorem square_gmul (a b : Byte) : square (gmul a b) = gmul (square a) (square b) :=
  calc square (gmul a b) = gmul a (gmul (gmul b a) b) := by rw [square, gmul_assoc, gmul_assoc]
    _ = gmul (square a) (square b) := by rw [gmul_comm b a, gmul_assoc, ← gmul_assoc a a]; rfl

theorem square_iterate_xor (n : Nat) (a b : Byte) : square^[n] (a ^^^ b) = square^[n] a ^^^ square^[n] b := by
  induction n generalizing a b with
  | zero => rfl
  | succ n ih => simp only [Function.iterate_succ_apply, square_xor, ih]

theorem square_iterate_gmul (n : Nat) (a b : Byte) :
    square^[n] (gmul a b) = gmul (square^[n] a) (square^[n] b) := by
  induction n generalizing a b with
  | zero => rfl
  | succ n ih => simp only [Function.iterate_succ_apply, square_gmul, ih]

/-- `a^256 = a`: eight squarings are additive and leave `x` as it is, so they go through the product `1 • a`. -/
theorem square_iterate_eight (a : Byte) : square^[8] a = a := by
  have htwo : square^[8] 0x02 = 0x02 := by decide
  have hone : square^[8] 1 = 1 := by decide
  have hxtime (x : Byte) : square^[8] (xtime x) = xtime (square^[8] x) := by
    rw [← two_gmul, square_iterate_gmul, htwo, two_gmul]
  calc square^[8] a = square^[8] (gmul 1 a) := by rw [one_gmul]
    _ = gmul (square^[8] 1) a := map_gmul (square_iterate_xor 8) hxtime 1 a
    _ = a := by rw [hone, one_gmul]

/-- Each turn of `ginv` keeps `a • a • p = s²`, where `s` is the square it has come to. -/
theorem gmul_gmul_foldl_ginvTurn (a : Byte) (l : List Nat) (p s : Byte) (h : gmul a (gmul a p) = square s) :
    gmul a (gmul a (l.foldl ginvTurn (p, s)).1) = square^[l.length + 1] s := by
  induction l generalizing p s with
  | nil => exact h
  | cons _ l ih =>
    apply ih
    calc gmul a (gmul a (gmul p (square s))) = gmul (gmul a (gmul a p)) (square s) := by simp only [gmul_assoc]
      _ = square (square s) := by rw [h]; rfl

/-- `a • a • a^254 = a^256`. -/
theorem gmul_gmul_ginv (a : Byte) : gmul a (gmul a (ginv a)) = a :=
  calc gmul a (gmul a (ginv a)) = square^[8] a :=
        gmul_gmul_foldl_ginvTurn a (List.range 7) 1 a (by rw [gmul_one]; rfl)
    _ = a := square_iterate_eight a

/-- The field has no idempotents but 0 and 1. -/
theorem eq_zero_or_one_of_square_eq (e : Byte) : square e = e → e = 0 ∨ e = 1 := by decide +revert

/-- `a • ginv(a)` is idempotent, and it is not 0 because `a` times it is `a`. -/
theorem gmul_ginv {a : Byte} (ha : a ≠ 0) : gmul a (ginv a) = 1 := by
  have hidem : square (gmul a (ginv a)) = gmul a (ginv a) :=
    calc square (gmul a (ginv a)) = gmul (gmul a (gmul a (ginv a))) (ginv a) := by
          rw [square, gmul_comm a (gmul a _), gmul_assoc (gmul a _)]
      _ = gmul a (ginv a) := by rw [gmul_gmul_ginv]
  rcases eq_zero_or_one_of_square_eq _ hidem with hzero | hone
  · have hback := gmul_gmul_ginv a
    rw [hzero, gmul_zero] at hback
    exact absurd hback.symm ha
  · exact hone

theorem ginv_zero : ginv 0x00 = 0x00 := by decide

/-- Settles O48. -/
theorem fieldInverseInverts : Obligations.FieldInverseInverts :=
  ⟨fun _ => gmul_ginv, ginv_zero⟩

theorem ginv_eq_of_gmul_eq_one {a b : Byte} (ha : a ≠ 0) (h : gmul a b = 1) : ginv a = b :=
  calc ginv a = gmul (ginv a) (gmul a b) := by rw [h, gmul_one]
    _ = gmul (gmul a (ginv a)) b := by rw [← gmul_assoc, gmul_comm (ginv a)]
    _ = b := by rw [gmul_ginv ha, one_gmul]

/-! ### The tables (R104 to R107) -/

/-- The inverse of the affine transformation of R104. -/
def invAffine (y : Byte) : Byte :=
  y.rotateLeft 1 ^^^ y.rotateLeft 3 ^^^ y.rotateLeft 6 ^^^ 0x05

theorem affine_invAffine (y : Byte) : affine (invAffine y) = y := by decide +revert

theorem gmul_invAffine_sbox (x : Byte) : x ≠ 0 → gmul x (invAffine (sbox x)) = 1 := by decide +revert

/-- The table of R105 is R104's formula: before the affine map, its entry at `x ≠ 0` is the inverse of `x`. -/
theorem sbox_eq_affine_ginv (x : Byte) : sbox x = affine (ginv x) := by
  by_cases hx : x = 0
  · subst hx; decide
  · rw [ginv_eq_of_gmul_eq_one hx (gmul_invAffine_sbox x hx), affine_invAffine]

theorem sbox_ne_self (x : Byte) : sbox x ≠ x := by decide +revert

theorem sbox_ne_complement (x : Byte) : sbox x ≠ x ^^^ 0xFF := by decide +revert

/-- Settles O49. -/
theorem sboxIsTheAffineInverse : Obligations.SboxIsTheAffineInverse :=
  ⟨sbox_eq_affine_ginv, by decide, by decide, by decide, sbox_ne_self, sbox_ne_complement⟩

@[simp] theorem invSbox_sbox (x : Byte) : invSbox (sbox x) = x := by decide +revert

@[simp] theorem sbox_invSbox (y : Byte) : sbox (invSbox y) = y := by decide +revert

/-- Settles O50. -/
theorem invSboxInvertsSbox : Obligations.InvSboxInvertsSbox :=
  ⟨invSbox_sbox, sbox_invSbox, by decide, by decide⟩

end Sys2Proof.Machine
end

section
/-! PROOFS. The word transforms and the round constants (40_primitives.md R109 to R113). -/

namespace Sys2Proof.Machine

/-! ### The bytes of the transformed words (R109, R110) -/

theorem byteOf_subWord (w : Word) :
    byteOf (subWord w) 0 = sbox (byteOf w 0) ∧ byteOf (subWord w) 1 = sbox (byteOf w 1) ∧
      byteOf (subWord w) 2 = sbox (byteOf w 2) ∧ byteOf (subWord w) 3 = sbox (byteOf w 3) :=
  byteOf_be32 _ _ _ _

theorem byteOf_rotWord (w : Word) :
    byteOf (rotWord w) 0 = byteOf w 1 ∧ byteOf (rotWord w) 1 = byteOf w 2 ∧
      byteOf (rotWord w) 2 = byteOf w 3 ∧ byteOf (rotWord w) 3 = byteOf w 0 :=
  byteOf_be32 _ _ _ _

theorem rotWord_be32 (b0 b1 b2 b3 : Byte) : rotWord (be32 b0 b1 b2 b3) = be32 b1 b2 b3 b0 := by
  simp only [rotWord, byteOf_be32]

theorem rotWord_eq_rotateLeft (w : Word) : rotWord w = w.rotateLeft 8 := by
  apply BitVec.eq_of_getLsbD_eq
  intro i hi
  simp only [rotWord, be32, byteOf, BitVec.getLsbD_append, BitVec.getLsbD_extractLsb', BitVec.getLsbD_rotateLeft]
  by_cases hlow : i < 8
  · simp [hlow]
  · simp only [hlow, hi, Nat.reduceMod, decide_false, decide_true, cond_false, if_false, Bool.true_and]
    repeat' split
    all_goals
      rw [decide_eq_true (by omega), Bool.true_and]
      congr 1
      omega

theorem rotWord_four (w : Word) : rotWord (rotWord (rotWord (rotWord w))) = w := by
  rw [← be32_byteOf w]
  simp only [rotWord_be32]

/-- SubWord acts byte by byte, so the order of the bytes does not matter to it. -/
theorem subWord_rotWord (w : Word) : subWord (rotWord w) = rotWord (subWord w) := by
  simp only [subWord, rotWord_be32, byteOf_rotWord]

/-! ### The round constants (R112, R113) -/

theorem byteOf_rcon (i : Nat) : byteOf (rcon i) 0 = roundConstants.getD (i - 1) 0 :=
  (byteOf_be32 _ _ _ _).1

theorem toNat_rcon (i : Nat) : (rcon i).toNat = (byteOf (rcon i) 0).toNat * 2 ^ 24 := by
  rw [byteOf_rcon, rcon, toNat_be32]
  simp [beNat]

theorem roundConstants_succ : ∀ j < 9, roundConstants.getD (j + 1) 0 = xtime (roundConstants.getD j 0) := by decide

theorem byteOf_rcon_succ {i : Nat} (hlo : 1 ≤ i) (hhi : i ≤ 9) : byteOf (rcon (i + 1)) 0 = xtime (byteOf (rcon i) 0) := by
  obtain ⟨j, rfl⟩ := Nat.exists_eq_add_of_le' hlo
  rw [byteOf_rcon, byteOf_rcon]
  exact roundConstants_succ j hhi

/-- Settles O51. -/
theorem wordTransformsActOnBytes : Obligations.WordTransformsActOnBytes :=
  ⟨byteOf_subWord, rotWord_eq_rotateLeft, rotWord_four, subWord_rotWord, by decide, by decide, by decide, by decide,
    by decide, by decide, fun i hlo hhi => ⟨byteOf_rcon_succ hlo hhi, toNat_rcon i⟩⟩

end Sys2Proof.Machine
end

section
/-! PROOFS. The key schedule (41_key_schedule.md R120 to R127): the parameters and words of `KeyExpansion`, what the round-key store
depends on, the expansion step and EXPAND as a whole, and which steps change the store. -/

namespace Sys2Proof.Machine

/-! ### The words of the schedule (R121) -/

/-- R7's parameters of each key size. -/
theorem keySize_parameters (k : KeySize) :
    k = .k128 ∧ k.nk = 4 ∧ k.nr = 10 ∨ k = .k192 ∧ k.nk = 6 ∧ k.nr = 12 ∨ k = .k256 ∧ k.nk = 8 ∧ k.nr = 14 := by
  cases k <;> decide

theorem nk_pos (k : KeySize) : 0 < k.nk := by cases k <;> decide

/-- The key words and the words of the loop make the whole schedule. -/
theorem nk_add_loopWords (k : KeySize) : k.nk + (k.scheduleWords - k.nk) = k.scheduleWords := by cases k <;> decide

/-- Every `Nk`-th word starts a step, with RotWord and Rcon. -/
theorem scheduleTemp_first {nk : Nat} (hpos : 0 < nk) (s : Nat) (prev : Word) :
    scheduleTemp nk (nk * s) prev = subWord (rotWord prev) ^^^ rcon s := by
  rw [scheduleTemp, if_pos (Nat.mul_mod_right nk s), Nat.mul_div_cancel_left s hpos]

/-- The fifth word of a 256-bit step has SubWord alone. -/
theorem scheduleTemp_middle (s : Nat) (prev : Word) : scheduleTemp 8 (8 * s + 4) prev = subWord prev := by
  rw [scheduleTemp, if_neg (by omega), if_pos (by omega)]

/-- Every other word of a step takes the word before it as it is. -/
theorem scheduleTemp_other {nk c : Nat} (hpos : 0 < c) (hlt : c < nk) (hmid : ¬ (nk = 8 ∧ c = 4)) (s : Nat) (prev : Word) :
    scheduleTemp nk (nk * s + c) prev = prev := by
  have hmod : (nk * s + c) % nk = c := (Nat.mul_add_mod nk s c).trans (Nat.mod_eq_of_lt hlt)
  rw [scheduleTemp, if_neg (by omega), if_neg]
  rintro ⟨rfl, h⟩
  exact hmid ⟨rfl, hmod.symm.trans h⟩

section
variable {key : List Word} {k : KeySize} (hk : key.length = k.nk)
include hk

/-- "exactly `KeySize.Nr + 1` round keys", four words each, for any `Nk` key words (R121). -/
theorem length_keyExpansion_of_length : (keyExpansion key k).length = k.scheduleWords := by
  rw [keyExpansion, length_extendSchedule, hk, nk_add_loopWords]

theorem keyExpansion_getD_key {i : Nat} (hi : i < k.nk) : (keyExpansion key k).getD i 0 = key.getD i 0 :=
  extendSchedule_getD_key k.nk key (hk ▸ hi) _

/-- The recurrence, on the finished schedule. -/
theorem keyExpansion_getD_new {i : Nat} (h1 : k.nk ≤ i) (h2 : i < k.scheduleWords) :
    (keyExpansion key k).getD i 0 = scheduleWord k.nk (keyExpansion key k) i :=
  extendSchedule_getD_new k.nk key hk (nk_pos k) h1 ((nk_add_loopWords k).symm ▸ h2)

end

/-- The first word of step `s` (R122 to R124). -/
theorem keyExpansion_getD_first {key : List Word} {k : KeySize} {nk s : Nat} (hk : key.length = nk) (hn : k.nk = nk)
    (hs : 1 ≤ s) (hlt : nk * s < k.scheduleWords) :
    (keyExpansion key k).getD (nk * s) 0 =
      subWord (rotWord ((keyExpansion key k).getD (nk * s - 1) 0)) ^^^ rcon s ^^^
        (keyExpansion key k).getD (nk * s - nk) 0 := by
  subst hn
  rw [keyExpansion_getD_new hk (Nat.le_mul_of_pos_right _ hs) hlt, scheduleWord, scheduleTemp_first (nk_pos k),
    BitVec.xor_comm]

/-- Word `c` of step `s`, not the first and not the fifth of a 256-bit step (R122 to R124). -/
theorem keyExpansion_getD_other {key : List Word} {k : KeySize} {nk s c : Nat} (hk : key.length = nk) (hn : k.nk = nk)
    (hs : 1 ≤ s) (hpos : 0 < c) (hc : c < nk) (hmid : ¬ (nk = 8 ∧ c = 4)) (hlt : nk * s + c < k.scheduleWords) :
    (keyExpansion key k).getD (nk * s + c) 0 =
      (keyExpansion key k).getD (nk * s + c - 1) 0 ^^^ (keyExpansion key k).getD (nk * s + c - nk) 0 := by
  subst hn
  have hle : k.nk ≤ k.nk * s := Nat.le_mul_of_pos_right _ hs
  rw [keyExpansion_getD_new hk (by omega) hlt, scheduleWord, scheduleTemp_other hpos hc hmid, BitVec.xor_comm]

/-- The fifth word of a 256-bit step `s` (R124). -/
theorem keyExpansion_getD_middle {key : List Word} (hk : key.length = 8) {s : Nat} (hs : 1 ≤ s) (hlt : 8 * s + 4 < 60) :
    (keyExpansion key .k256).getD (8 * s + 4) 0 =
      subWord ((keyExpansion key .k256).getD (8 * s + 3) 0) ^^^ (keyExpansion key .k256).getD (8 * s - 4) 0 := by
  have hle : KeySize.nk .k256 ≤ 8 * s + 4 := show 8 ≤ 8 * s + 4 by omega
  have hback : 8 * s + 4 - 8 = 8 * s - 4 := by omega
  have hrec : (keyExpansion key .k256).getD (8 * s + 4) 0 = scheduleWord 8 (keyExpansion key .k256) (8 * s + 4) :=
    keyExpansion_getD_new hk hle hlt
  rw [hrec, scheduleWord, scheduleTemp_middle, hback, BitVec.xor_comm, Nat.add_sub_assoc (by decide)]

/-- Settles O52: the recurrence of the loop, with `scheduleTemp` its `temp`. -/
theorem keyExpansionFollowsTheRecurrence : Obligations.KeyExpansionFollowsTheRecurrence := fun k _ hk =>
  ⟨keySize_parameters k, length_keyExpansion_of_length hk, fun _ => keyExpansion_getD_key hk,
    fun _ => keyExpansion_getD_new hk⟩

/-- Settles O53, by the place of the word in its 8-word step. -/
theorem roundKeysOf256BitKeysAlternate : Obligations.RoundKeysOf256BitKeysAlternate := by
  intro key w hk hw
  rw [hw]
  refine ⟨fun s hlo hhi => ?_, fun s hlo hhi => ?_, fun s c hs hlo hhi hne hlt => ?_⟩
  · exact keyExpansion_getD_first hk rfl hlo (show 8 * s < 60 by omega)
  · exact keyExpansion_getD_middle hk hlo (by omega)
  · exact keyExpansion_getD_other hk rfl hs hlo (Nat.lt_succ_of_le hhi) (fun h => hne h.2) hlt

/-- Settles O54, by the place of the word in its 6-word step; word 51 closes round key 12. -/
theorem roundKeysOf192BitKeysAreUniform : Obligations.RoundKeysOf192BitKeysAreUniform := by
  intro key w hk hw
  rw [hw]
  refine ⟨length_keyExpansion_of_length hk, fun s hlo hhi => ?_, fun s c hs hlo hhi hlt => ?_⟩
  · exact keyExpansion_getD_first hk rfl hlo (show 6 * s < 52 by omega)
  · exact keyExpansion_getD_other hk rfl hs hlo (Nat.lt_succ_of_le hhi) (fun h => absurd h.1 (by decide)) hlt

/-! ### The round-key store (R120, R126) -/

/-- A word of the store is the schedule's, and 0 above the schedule (R34). -/
theorem getElem_roundKeyStore (key : Vector Word 8) (k : KeySize) {j : Nat} (hj : j < 60) :
    (roundKeyStore key k)[j] = if j < k.scheduleWords then (keyExpansion (keyWords key k) k).getD j 0 else 0 :=
  Vector.getElem_ofFn _

/-- Keys that agree on `KEY[0]` to `KEY[Nk-1]` have the same key words. -/
theorem keyWords_congr {k : KeySize} {key key' : Vector Word 8} (h : ∀ i (h : i < 8), i < k.nk → key[i] = key'[i]) :
    keyWords key k = keyWords key' k := by
  refine List.ext_getElem (by simp only [length_keyWords]) fun i hi hi' => ?_
  have hnk : i < k.nk := length_keyWords key k ▸ hi
  have hle : k.nk ≤ 8 := by cases k <;> decide
  simpa only [keyWords, List.getElem_take, Vector.getElem_toList] using h i (by omega) hnk

/-- Settles O55: the store is made from the key words alone. -/
theorem unusedKeyRegistersDoNotMatter : Obligations.UnusedKeyRegistersDoNotMatter := by
  intro k key key' h
  rw [roundKeyStore, roundKeyStore, keyWords_congr h]

/-! ### The expansion step and EXPAND (R126, R127) -/

/-- The first line of R175: a command that builds its schedule does so in phase Expand. -/
theorem sequence_expand {r : Run} (hb : buildsSchedule r.op = true) (hp : r.phase = .expand) (s : State) :
    sequenceOf r.op r s = .next (expandPhase r s) := by
  cases hop : r.op
  case encb | decb => rw [hop] at hb; cases hb
  all_goals simp only [sequenceOf, expandSequence, modeSequence, hp]

/-- The last line of R175, for every command. -/
theorem sequence_finish {r : Run} (hp : r.phase = .finish) (s : State) : sequenceOf r.op r s = .next (complete s) := by
  cases r.op <;> simp only [sequenceOf, expandSequence, singleBlockSequence, modeSequence, hp]

/-- Settles O10: the expansion step, with the store read word by word. -/
theorem expandStepBuildsTheRoundKeyStore : Obligations.ExpandStepBuildsTheRoundKeyStore := by
  intro s r hs hp hop
  have hb : buildsSchedule r.op = true := by rcases hop with h | h | h | h <;> rw [h] <;> rfl
  exact ⟨roundKeyStore s.key r.kb, fun _ hj => getElem_roundKeyStore s.key r.kb hj,
    (exec_running hs).trans (sequence_expand hb hp s)⟩

/-- An Idle core accepts the command of the host's `CMD` write when its checks pass (R170, R171). -/
theorem step_accept {s : State} {op : Op} {k : KeySize} {rest : List Move} (hi : s.seq = .idle)
    (hm : s.moves = cmdWrite s.platform (encode (op.instr k.bits)) :: rest)
    (hc : checksOf op k { s with cmd := encode (op.instr k.bits), moves := rest } = none) :
    step s = .next (accept op k { s with cmd := encode (op.instr k.bits), moves := rest }) := by
  rw [step_submit hm hi, submitWord_ok (decodeInstr_encode _), exec_idle (s := { s with cmd := _, moves := rest }) hi,
    op_instr, keyBits_instr, submit_accepted hc]

/-- Settles O20: acceptance, the expansion step, completion. -/
theorem expandCommandRunsToCompletion : Obligations.ExpandCommandRunsToCompletion := by
  intro s k hi hm
  rw [runSteps_succ (step_accept (op := .expand) hi hm rfl),
    runSteps_succ ((step_turn rfl rfl).trans (sequence_expand rfl rfl _)),
    runSteps_succ ((step_turn rfl rfl).trans (sequence_finish rfl _)), runSteps_zero]
  cases s
  cases hi
  rfl

/-! ### Which steps change the store (R129) -/

/-- The round-key store with the key size of the schedule it holds (R27, R34). -/
def State.keyStore (s : State) : Vector Word 60 × Option KeySize := (s.rk, s.ksSize)

/-- The running command's step changes the store only in phase Expand. -/
theorem sequence_keyStore {r : Run} {s t : State} (h : sequenceOf r.op r s = .next t) :
    t.keyStore = s.keyStore ∨ r.phase = .expand := by
  obtain ⟨hp, -, -⟩ | ⟨-, -, f, rfl⟩ | ⟨i, f, -, -, ⟨rfl, -⟩ | ⟨rfl, -⟩⟩ | ⟨-, rfl⟩ := sequence_cases h
  case inl => exact .inr hp
  all_goals exact .inl rfl

theorem TurnTo.keyStore {s t : State} (h : TurnTo s t) :
    t.keyStore = s.keyStore ∨ ∃ r, s.seq = .run r ∧ r.phase = .expand := by
  cases h with
  | idle => exact .inl rfl
  | run r _ hs hseq => exact (sequence_keyStore hseq).imp_right fun hp => ⟨r, hs, hp⟩

theorem readReg_keyStore (r : Reg) (s : State) : (readReg r s).keyStore = s.keyStore := by
  obtain ⟨-, -, heq⟩ | ⟨-, heq⟩ := readReg_cases r s <;> rw [heq] <;> rfl

theorem submit_keyStore (op : Op) (kb : KeyBits) (check : KeySize → State → Option ErrorCode) (s : State) :
    (submit op kb check s).keyStore = s.keyStore := by
  obtain ⟨-, heq⟩ | ⟨k, e, -, -, heq⟩ | ⟨k, -, -, heq⟩ := submit_cases op kb check s <;> rw [heq] <;> rfl

/-- No register write of the host reaches the store: `RK*` and `KSINFO` are read-only, and a submission builds nothing yet (R170). -/
theorem WriteTo.keyStore {s t : State} {r : Reg} {v : Word} (h : WriteTo s r v t) : t.keyStore = s.keyStore := by
  cases h with
  | command => exact submit_keyStore _ _ _ _
  | readOnly | status | ignored | key | iv | din | src | dst | len | badCommand => rfl

/-- A step leaves the store as it is, is the sequencer's turn in phase Expand, or is reset. -/
theorem step_keyStore {s t : State} (h : step s = .next t) :
    t.keyStore = s.keyStore ∨
    (∃ r, s.seq = .run r ∧ r.phase = .expand ∧ (s.moves = [] ∨ ∃ rest, s.moves = .sequencer :: rest)) ∨
    ∃ rest, s.moves = .reset :: rest := by
  cases step_cases h with
  | turn _ hnil ht => exact ht.keyStore.imp_right fun ⟨r, hs, hp⟩ => .inl ⟨r, hs, hp, .inl hnil⟩
  | turnGiven rest _ hm ht => exact ht.keyStore.imp_right fun ⟨r, hs, hp⟩ => .inl ⟨r, hs, hp, .inr ⟨rest, hm⟩⟩
  | regRead _ _ r rest => exact .inl (readReg_keyStore r { s with moves := rest })
  | regWrite _ _ _ _ _ _ _ _ hw => exact .inl hw.keyStore
  | reset rest hm => exact .inr (.inr ⟨rest, hm⟩)
  | memRead | memWrite | setRefused => exact .inl rfl

/-- Settles O31. -/
theorem roundKeysChangeOnlyAtExpansionOrReset : Obligations.RoundKeysChangeOnlyAtExpansionOrReset := by
  intro s t h hne
  refine (step_keyStore h).resolve_left fun heq => ?_
  obtain ⟨hrk, hsize⟩ := Prod.mk.inj heq
  exact hne.elim (· hrk) (· hsize)

end Sys2Proof.Machine
end

section
/-! PROOFS. The block cipher core (42_block_core.md): the round transformations by row and column, the inverse transformations, the
pipelines `Cipher` and `InvCipher`, and the single-block commands ENCB and DECB. -/

namespace Sys2Proof.Machine

/-! ### The state by row and column (R140) -/

/-- A block is its bytes by row and column. -/
theorem block_ext {t u : Block} (h : ∀ row col (hr : row < 4) (hc : col < 4), t[row + 4 * col] = u[row + 4 * col]) :
    t = u := by
  refine Vector.ext fun n hn => ?_
  have hplace : n % 4 + 4 * (n / 4) = n := Nat.mod_add_div n 4
  simpa only [hplace] using h (n % 4) (n / 4) (by omega) (by omega)

/-- A column is its bytes by row. -/
theorem column_ext {a b : Column} (h : ∀ i : Fin 4, a[i] = b[i]) : a = b := Vector.ext fun i hi => h ⟨i, hi⟩

theorem getElem_columnOf (t : Block) (row : Nat) (col : Fin 4) (hr : row < 4) :
    (columnOf t col)[row] = t[row + 4 * col.val] := by
  obtain rfl | rfl | rfl | rfl : row = 0 ∨ row = 1 ∨ row = 2 ∨ row = 3 := by omega
  all_goals simp [columnOf, Nat.add_comm]

theorem getElem_onColumns (f : Column → Column) (t : Block) (row col : Nat) (hr : row < 4) (hc : col < 4) :
    (onColumns f t)[row + 4 * col] = (f (columnOf t ⟨col, hc⟩))[row] := by
  have hdiv : (row + 4 * col) / 4 = col := by omega
  have hmod : (row + 4 * col) % 4 = row := by omega
  simp only [onColumns, Vector.getElem_ofFn, hdiv, hmod]

theorem columnOf_onColumns (f : Column → Column) (t : Block) (col : Fin 4) :
    columnOf (onColumns f t) col = f (columnOf t col) :=
  Vector.ext fun row hr => (getElem_columnOf _ row col hr).trans (getElem_onColumns f t row col hr col.isLt)

/-! ### AddRoundKey and the byte lanes (R125, R141, R142, R145) -/

theorem getElem_roundKey (w : List Word) (r row col : Nat) (hr : row < 4) (hc : col < 4) :
    (roundKey w r)[row + 4 * col] = byteOf (w.getD (4 * r + col) 0) row := by
  have hdiv : (row + 4 * col) / 4 = col := by omega
  have hmod : (row + 4 * col) % 4 = row := by omega
  simp only [roundKey, Vector.getElem_ofFn, hdiv, hmod]

@[simp] theorem getElem_addRoundKey (w : List Word) (r : Nat) (t : Block) (n : Nat) (hn : n < 16) :
    (addRoundKey w r t)[n] = t[n] ^^^ (roundKey w r)[n] :=
  Vector.getElem_ofFn _

@[simp] theorem getElem_subBytes (t : Block) (n : Nat) (hn : n < 16) : (subBytes t)[n] = sbox t[n] :=
  Vector.getElem_ofFn _

@[simp] theorem getElem_invSubBytes (t : Block) (n : Nat) (hn : n < 16) : (invSubBytes t)[n] = invSbox t[n] :=
  Vector.getElem_ofFn _

@[simp] theorem addRoundKey_addRoundKey (w : List Word) (r : Nat) (t : Block) : addRoundKey w r (addRoundKey w r t) = t :=
  Vector.ext fun n hn => by simp

@[simp] theorem invSubBytes_subBytes (t : Block) : invSubBytes (subBytes t) = t :=
  Vector.ext fun n hn => by simp

@[simp] theorem subBytes_invSubBytes (t : Block) : subBytes (invSubBytes t) = t :=
  Vector.ext fun n hn => by simp

/-! ### The byte permutations (R143, R146) -/

@[simp] theorem getElem_shiftRows (t : Block) (n : Nat) (hn : n < 16) : (shiftRows t)[n] = t[shiftRowsIndex[n].val] :=
  Vector.getElem_ofFn _

@[simp] theorem getElem_invShiftRows (t : Block) (n : Nat) (hn : n < 16) :
    (invShiftRows t)[n] = t[invShiftRowsIndex[n].val] :=
  Vector.getElem_ofFn _

/-- The permutation of R143 takes row `row` from `row` columns to the right. -/
theorem shiftRowsIndex_row_col : ∀ row col : Fin 4,
    (shiftRowsIndex[row.val + 4 * col.val]).val = row.val + 4 * ((col.val + row.val) % 4) := by decide

/-- The permutation of R146 takes row `row` from `row` columns to the left. -/
theorem invShiftRowsIndex_row_col : ∀ row col : Fin 4,
    (invShiftRowsIndex[row.val + 4 * col.val]).val = row.val + 4 * ((col.val + 4 - row.val) % 4) := by decide

theorem getElem_shiftRows_row_col (t : Block) (row col : Nat) (hr : row < 4) (hc : col < 4) :
    (shiftRows t)[row + 4 * col] = t[row + 4 * ((col + row) % 4)] := by
  simp only [getElem_shiftRows, shiftRowsIndex_row_col ⟨row, hr⟩ ⟨col, hc⟩]

theorem getElem_invShiftRows_row_col (t : Block) (row col : Nat) (hr : row < 4) (hc : col < 4) :
    (invShiftRows t)[row + 4 * col] = t[row + 4 * ((col + 4 - row) % 4)] := by
  simp only [getElem_invShiftRows, invShiftRowsIndex_row_col ⟨row, hr⟩ ⟨col, hc⟩]

theorem shiftRowsIndex_invShiftRowsIndex : ∀ n : Fin 16, shiftRowsIndex[invShiftRowsIndex[n]] = n := by decide

theorem invShiftRowsIndex_shiftRowsIndex : ∀ n : Fin 16, invShiftRowsIndex[shiftRowsIndex[n]] = n := by decide

@[simp] theorem invShiftRows_shiftRows (t : Block) : invShiftRows (shiftRows t) = t := by
  refine Vector.ext fun n hn => ?_
  have hindex := shiftRowsIndex_invShiftRowsIndex ⟨n, hn⟩
  simp only [Fin.getElem_fin] at hindex
  simp only [getElem_invShiftRows, getElem_shiftRows, hindex]

@[simp] theorem shiftRows_invShiftRows (t : Block) : shiftRows (invShiftRows t) = t := by
  refine Vector.ext fun n hn => ?_
  have hindex := invShiftRowsIndex_shiftRowsIndex ⟨n, hn⟩
  simp only [Fin.getElem_fin] at hindex
  simp only [getElem_invShiftRows, getElem_shiftRows, hindex]

/-- A byte lane and a byte permutation commute (R148). -/
theorem shiftRows_subBytes (t : Block) : shiftRows (subBytes t) = subBytes (shiftRows t) :=
  Vector.ext fun n hn => by simp only [getElem_shiftRows, getElem_subBytes]

theorem invShiftRows_invSubBytes (t : Block) : invShiftRows (invSubBytes t) = invSubBytes (invShiftRows t) :=
  Vector.ext fun n hn => by simp only [getElem_invShiftRows, getElem_invSubBytes]

/-! ### The column matrices (R144, R147) -/

/-- The product of a column with a circulant matrix: the coefficients are given from the byte's own row on. -/
def circulant (p0 p1 p2 p3 : Byte) (a : Column) : Column :=
  Vector.ofFn fun i : Fin 4 => gmul p0 a[i] ^^^ gmul p1 a[i + 1] ^^^ gmul p2 a[i + 2] ^^^ gmul p3 a[i + 3]

theorem getElem_circulant (p0 p1 p2 p3 : Byte) (a : Column) (i : Fin 4) : (circulant p0 p1 p2 p3 a)[i] =
    gmul p0 a[i] ^^^ gmul p1 a[i + 1] ^^^ gmul p2 a[i + 2] ^^^ gmul p3 a[i + 3] :=
  Vector.getElem_ofFn _

theorem circulant_eq_rows (p0 p1 p2 p3 : Byte) (a : Column) : circulant p0 p1 p2 p3 a =
    #v[gmul p0 a[0] ^^^ gmul p1 a[1] ^^^ gmul p2 a[2] ^^^ gmul p3 a[3],
      gmul p0 a[1] ^^^ gmul p1 a[2] ^^^ gmul p2 a[3] ^^^ gmul p3 a[0],
      gmul p0 a[2] ^^^ gmul p1 a[3] ^^^ gmul p2 a[0] ^^^ gmul p3 a[1],
      gmul p0 a[3] ^^^ gmul p1 a[0] ^^^ gmul p2 a[1] ^^^ gmul p3 a[2]] := rfl

/-- Each row of R144's matrix is the one above it, rotated. -/
theorem mixColumn_eq_circulant (a : Column) : mixColumn a = circulant 0x02 0x03 0x01 0x01 a := by
  simp only [mixColumn, circulant_eq_rows, one_gmul]
  ac_rfl

/-- Each row of R147's matrix is the one above it, rotated. -/
theorem invMixColumn_eq_circulant (a : Column) : invMixColumn a = circulant 0x0E 0x0B 0x0D 0x09 a := by
  simp only [invMixColumn, circulant_eq_rows]
  ac_rfl

/-- The product of two circulant matrices is circulant. -/
theorem circulant_circulant (p0 p1 p2 p3 q0 q1 q2 q3 : Byte) (a : Column) :
    circulant p0 p1 p2 p3 (circulant q0 q1 q2 q3 a) = circulant
      (gmul p0 q0 ^^^ gmul p1 q3 ^^^ gmul p2 q2 ^^^ gmul p3 q1) (gmul p0 q1 ^^^ gmul p1 q0 ^^^ gmul p2 q3 ^^^ gmul p3 q2)
      (gmul p0 q2 ^^^ gmul p1 q1 ^^^ gmul p2 q0 ^^^ gmul p3 q3) (gmul p0 q3 ^^^ gmul p1 q2 ^^^ gmul p2 q1 ^^^ gmul p3 q0)
      a := by
  refine column_ext fun i => ?_
  simp only [getElem_circulant, gmul_xor, gmul_xor_left, gmul_assoc, add_assoc, Fin.reduceAdd, add_zero]
  ac_rfl

theorem zero_gmul (a : Byte) : gmul 0 a = 0 := by rw [gmul_comm, gmul_zero]

theorem circulant_one (a : Column) : circulant 1 0 0 0 a = a := by
  refine column_ext fun i => ?_
  rw [getElem_circulant, one_gmul, zero_gmul, zero_gmul, zero_gmul]
  simp

/-- R147's matrix is the inverse of R144's: the coefficients of their product compute to 1, 0, 0, 0. -/
theorem invMixColumn_mixColumn (a : Column) : invMixColumn (mixColumn a) = a := by
  rw [invMixColumn_eq_circulant, mixColumn_eq_circulant, circulant_circulant]
  exact circulant_one a

theorem mixColumn_invMixColumn (a : Column) : mixColumn (invMixColumn a) = a := by
  rw [invMixColumn_eq_circulant, mixColumn_eq_circulant, circulant_circulant]
  exact circulant_one a

/-- The coefficients of each row of R144's matrix sum to 1. -/
theorem mixColumn_const (a : Byte) : mixColumn #v[a, a, a, a] = #v[a, a, a, a] := by
  rw [mixColumn_eq_circulant]
  refine column_ext fun i => ?_
  have hconst (j : Fin 4) : (#v[a, a, a, a] : Column)[j] = a := by
    match j with
    | 0 | 1 | 2 | 3 => rfl
  simp only [getElem_circulant, hconst, ← gmul_xor_left]
  exact one_gmul a

/-- Column maps of which one undoes the other do so on the state, column by column (R148). -/
theorem onColumns_onColumns_of_inverse {f g : Column → Column} (h : ∀ a, f (g a) = a) (t : Block) :
    onColumns f (onColumns g t) = t := by
  refine block_ext fun row col hr hc => ?_
  rw [getElem_onColumns _ _ _ _ hr hc, columnOf_onColumns, h, getElem_columnOf]

@[simp] theorem invMixColumns_mixColumns (t : Block) : invMixColumns (mixColumns t) = t :=
  onColumns_onColumns_of_inverse invMixColumn_mixColumn t

@[simp] theorem mixColumns_invMixColumns (t : Block) : mixColumns (invMixColumns t) = t :=
  onColumns_onColumns_of_inverse mixColumn_invMixColumn t

/-- The terms of a circulant column step, at the byte's row and the three below it, cyclically. -/
theorem getElem_onColumns_circulant {f : Column → Column} {p0 p1 p2 p3 : Byte} (h : ∀ a, f a = circulant p0 p1 p2 p3 a)
    (t : Block) (row col : Nat) (hr : row < 4) (hc : col < 4) :
    (onColumns f t)[row + 4 * col] =
      gmul p0 t[row + 4 * col] ^^^ gmul p1 t[(row + 1) % 4 + 4 * col] ^^^ gmul p2 t[(row + 2) % 4 + 4 * col] ^^^
        gmul p3 t[(row + 3) % 4 + 4 * col] := by
  rw [getElem_onColumns _ _ _ _ hr hc, h]
  refine (getElem_circulant p0 p1 p2 p3 _ ⟨row, hr⟩).trans ?_
  simp only [Fin.getElem_fin, getElem_columnOf]
  rfl

/-- Settles O56, by the lemma of each transformation. -/
theorem roundTransformsByRowAndColumn : Obligations.RoundTransformsByRowAndColumn := by
  intro t w r row col hr hc
  refine ⟨getElem_roundKey w r row col hr hc, ?_, getElem_subBytes t _ _, getElem_shiftRows_row_col t row col hr hc, ?_⟩
  · rw [getElem_addRoundKey, getElem_roundKey w r row col hr hc]
  · rw [mixColumns, getElem_onColumns_circulant mixColumn_eq_circulant t row col hr hc, one_gmul, one_gmul]

/-- Settles O57, by the lemma of each transformation. -/
theorem inverseTransformsByRowAndColumn : Obligations.InverseTransformsByRowAndColumn := fun t row col hr hc =>
  ⟨getElem_invSubBytes t _ _, getElem_invShiftRows_row_col t row col hr hc,
    getElem_onColumns_circulant invMixColumn_eq_circulant t row col hr hc⟩

/-- Settles O58. -/
theorem inverseTransformsUndo : Obligations.InverseTransformsUndo :=
  ⟨fun t w r => ⟨invSubBytes_subBytes t, invShiftRows_shiftRows t, invMixColumns_mixColumns t, mixColumns_invMixColumns t,
    addRoundKey_addRoundKey w r t, shiftRows_subBytes t, invShiftRows_invSubBytes t⟩, mixColumn_const⟩

/-! ### The pipelines (R149 to R152) -/

/-- The inverse rounds take the rounds back, last one first: each starts by undoing SubBytes and ShiftRows of the round after the
one it is numbered for, and leaves those of its own round to the next. -/
theorem invCipherRounds_cipherRounds (w : List Word) (n : Nat) (t : Block) :
    invCipherRounds w n (shiftRows (subBytes (cipherRounds w n t))) = shiftRows (subBytes t) := by
  induction n with
  | zero => rfl
  | succ n ih =>
    simp only [cipherRounds, cipherRound, invCipherRounds, invCipherRound, invShiftRows_shiftRows, invSubBytes_subBytes,
      addRoundKey_addRoundKey, invMixColumns_mixColumns, ih]

theorem cipherRounds_invCipherRounds (w : List Word) (n : Nat) (t : Block) :
    cipherRounds w n (invSubBytes (invShiftRows (invCipherRounds w n t))) = invSubBytes (invShiftRows t) := by
  induction n generalizing t with
  | zero => rfl
  | succ n ih =>
    simp only [cipherRounds, cipherRound, invCipherRounds, invCipherRound, ih, subBytes_invSubBytes, shiftRows_invShiftRows,
      mixColumns_invMixColumns, addRoundKey_addRoundKey]

theorem invCipher_cipher (w : List Word) (nr : Nat) (b : Block) : invCipher w nr (cipher w nr b) = b := by
  simp only [invCipher, cipher, addRoundKey_addRoundKey, invCipherRounds_cipherRounds, invShiftRows_shiftRows,
    invSubBytes_subBytes]

theorem cipher_invCipher (w : List Word) (nr : Nat) (b : Block) : cipher w nr (invCipher w nr b) = b := by
  simp only [invCipher, cipher, addRoundKey_addRoundKey, cipherRounds_invCipherRounds, subBytes_invSubBytes,
    shiftRows_invShiftRows]

/-- The state after the first `k` of the rounds `nr - 1` down to 1 of R151. -/
def invCipherState (w : List Word) (nr : Nat) (t : Block) : Nat → Block
  | 0 => t
  | k + 1 => invCipherRound w (nr - (k + 1)) (invCipherState w nr t k)

/-- The rounds below the first `k` lead from the state after those to the end. -/
theorem invCipherRounds_invCipherState (w : List Word) (n k : Nat) (t : Block) :
    invCipherRounds w n (invCipherState w (n + k + 1) t k) = invCipherRounds w (n + k) t := by
  induction k generalizing n with
  | zero => rfl
  | succ k ih =>
    have hround : n + (k + 1) + 1 - (k + 1) = n + 1 := by omega
    have hrest := ih (n + 1)
    rw [Nat.add_right_comm n 1 k] at hrest
    rw [invCipherState, hround]
    exact hrest

/-- Settles O59: the states of the rounds, and the round trips. -/
theorem cipherAndInvCipherUndoEachOther : Obligations.CipherAndInvCipherUndoEachOther := by
  intro w nr b
  refine ⟨fun _ => ⟨fun r => cipherRounds w r (addRoundKey w 0 b), rfl, fun r hr _ => ?_, rfl⟩,
    fun hnr => ⟨fun r => invCipherState w nr (addRoundKey w nr b) (nr - r), ?_, fun r _ hr => ?_, ?_⟩,
    invCipher_cipher w nr b, cipher_invCipher w nr b⟩
  · obtain ⟨n, rfl⟩ := Nat.exists_eq_add_of_le' hr
    rfl
  · simp only [Nat.sub_self, invCipherState]
  · have hk : nr - r = nr - (r + 1) + 1 := by omega
    have hround : nr - (nr - (r + 1) + 1) = r := by omega
    simp only [hk, invCipherState, hround, invCipherRound]
  · obtain ⟨n, rfl⟩ := Nat.exists_eq_add_of_le' hnr
    have hend := invCipherRounds_invCipherState w 0 n (addRoundKey w (n + 1) b)
    rw [Nat.zero_add] at hend
    rw [invCipher, Nat.add_sub_cancel, ← hend]
    rfl

/-! ### ENCB and DECB (R160, R161) -/

/-- The single-block commands with their block functions. -/
inductive SingleBlockFunction : Op → (List Word → Nat → Block → Block) → Prop where
  | encb : SingleBlockFunction .encb cipher
  | decb : SingleBlockFunction .decb invCipher

/-- The block step of ENCB and DECB in `Block(0)` (R175). -/
theorem sequence_singleBlock {r : Run} {f : List Word → Nat → Block → Block} (hf : SingleBlockFunction r.op f)
    (hp : r.phase = .block 0) (s : State) : sequenceOf r.op r s = .next (singleBlockStep f r s) := by
  generalize hop : r.op = op at hf
  cases hf <;> simp only [sequenceOf, singleBlockSequence, hp]

theorem exec_singleBlock {s : State} {r : Run} {op : Op} {k : KeySize} {f : List Word → Nat → Block → Block}
    (hf : SingleBlockFunction op f) (hs : s.seq = .run r) (hop : r.op = op) (hk : r.kb = k) (hp : r.phase = .block 0) :
    exec (op.instr k.bits) s = .next (singleBlockStep f r s) := by
  subst hop hk
  exact (exec_running hs).trans (sequence_singleBlock hf hp s)

/-- Settles O11, with `Cipher` as the block function. -/
theorem encbEncryptsDinIntoDout : Obligations.EncbEncryptsDinIntoDout := by
  rintro s r _ hs hop rfl hp
  exact exec_singleBlock .encb hs hop rfl hp

/-- Settles O12, with `InvCipher` as the block function. -/
theorem decbDecryptsDinIntoDout : Obligations.DecbDecryptsDinIntoDout := by
  rintro s r _ hs hop rfl hp
  exact exec_singleBlock .decb hs hop rfl hp

/-- ENCB and DECB ask for the stored schedule's key size and build none (R206). -/
theorem SingleBlockFunction.checks {op : Op} {f : List Word → Nat → Block → Block} (hf : SingleBlockFunction op f)
    {k : KeySize} {s : State} (hk : s.ksSize = some k) : checksOf op k s = none := by
  cases hf <;> exact if_pos hk

theorem SingleBlockFunction.phase_startRun {op : Op} {f : List Word → Nat → Block → Block} (hf : SingleBlockFunction op f)
    (k : KeySize) (s : State) : (startRun op k s).phase = .block 0 := by
  cases hf <;> rfl

/-- A single-block command from its `CMD` write: acceptance, the block step, completion. -/
theorem runSteps_singleBlock {s : State} {op : Op} {k : KeySize} {f : List Word → Nat → Block → Block}
    (hf : SingleBlockFunction op f) (hi : s.seq = .idle) (hk : s.ksSize = some k)
    (hm : s.moves = [cmdWrite s.platform (encode (op.instr k.bits))]) :
    runSteps 3 s = .next { s with
      moves := []
      cmd := encode (op.instr k.bits)
      dout := wordsOfBlock (f (schedule k s) k.nr (blockOfWords s.din))
      blkCnt := 0
      errCode := .ok
      done := true } := by
  rw [runSteps_succ (step_accept hi hm (hf.checks hk)),
    runSteps_succ ((step_turn rfl rfl).trans (sequence_singleBlock hf (hf.phase_startRun k _) _)),
    runSteps_succ ((step_turn rfl rfl).trans (sequence_finish rfl _)), runSteps_zero]
  cases s
  cases hi
  rfl

/-- Settles O21, for each of the two block functions. -/
theorem singleBlockCommandRunsToCompletion : Obligations.SingleBlockCommandRunsToCompletion := fun _ k hi hk =>
  ⟨runSteps_singleBlock (op := .encb) (k := k) .encb hi hk, runSteps_singleBlock (op := .decb) (k := k) .decb hi hk⟩

end Sys2Proof.Machine
end

section
/-! PROOFS. Submission and the sequencer's turn (43_modes.md R170 to R176; 60_exceptions.md R202, R203): the checks of R202 on the
numbers of a word decide what its `CMD` write does, and what the steps of R175 are. -/

namespace Sys2Proof.Machine

/-! ### The checks of R202 on the numbers of a word -/

/-- The numbers of the fields of a command's word (R81). -/
theorem toNat_encode_fields (i : Instr) :
    (encode i).toNat % 16 = i.op.code.toNat ∧ (encode i).toNat / 16 % 4096 = 0 ∧
      (encode i).toNat / 65536 = i.keyBits.toNat := by
  obtain ⟨hop, hrsvd, hkb⟩ : Laws.EncodedFields.Statement i := Laws.fields_of_append i.keyBits i.op.code
  refine ⟨?_, (rsvdField_eq_zero_iff _).1 hrsvd, ?_⟩
  · rw [← hop, toNat_opField]
  · have hlt : (encode i).toNat / 65536 < 2 ^ 16 := by
      have := (encode i).isLt
      omega
    rw [← hkb, keyBitsField_eq_ofNat, BitVec.toNat_ofNat, Nat.mod_eq_of_lt hlt]

/-- The legal KEYBITS values, on the number (R82). -/
theorem keySizeOf_eq_none_iff_toNat (kb : KeyBits) : keySizeOf kb = none ↔ kb.toNat ∉ [128, 192, 256] := by
  rw [keySizeOf_eq_none_iff, ← legalKeyBits_ofNat_iff kb.isLt, BitVec.ofNat_toNat, BitVec.setWidth_eq, Bool.not_eq_true]

theorem toNat_ksSizeBits_eq_iff (s : State) (k : KeySize) :
    s.ksSizeBits.toNat = k.bits.toNat ↔ s.ksSize = some k := by
  rw [BitVec.toNat_inj, State.ksSizeBits]
  cases s.ksSize with
  | none => cases k <;> decide
  | some k' => exact ⟨fun h => congrArg some (bits_injective h), fun h => congrArg KeySize.bits (Option.some.inj h)⟩

/-- Check 1: a word that names no command. -/
theorem submissionError_of_error {c : Word} {e : DecodeReject} (h : decodeInstr c = .error e) (s : State) :
    submissionError c s = some .invalidCommand := by
  refine if_pos ?_
  by_contra hc
  obtain ⟨hrsvd, hop⟩ := not_or.1 hc
  rw [not_not] at hrsvd hop
  have hcode : opOf (opField c) ≠ none := by
    rw [Ne, opOf_eq_none_iff, toNat_opField]
    simp only [List.mem_cons, List.not_mem_nil, or_false] at hop
    omega
  obtain ⟨op, hsome⟩ := Option.ne_none_iff_exists'.1 hcode
  rw [decodeInstr_of_fields ((rsvdField_eq_zero_iff c).2 hrsvd) (opOf_eq_some hsome)] at h
  cases h

/-- Check 2: a command whose KEYBITS names no key size. -/
theorem submissionError_badSize {i : Instr} (h : keySizeOf i.keyBits = none) (s : State) :
    submissionError (encode i) s = some .invalidKeySize := by
  obtain ⟨hop, hrsvd, hkb⟩ := toNat_encode_fields i
  have hcode : i.op.code.toNat ∈ [1, 2, 3, 4, 5, 6] := by cases i.op <;> decide
  simp only [submissionError, hop, hrsvd, hkb]
  rw [if_neg (by simp [hcode]), if_pos ((keySizeOf_eq_none_iff_toNat _).1 h)]

/-- Checks 3 to 6: those of the operation. -/
theorem submissionError_encode (op : Op) (k : KeySize) (s : State) :
    submissionError (encode (op.instr k.bits)) s = checksOf op k s := by
  obtain ⟨hop, hrsvd, hkb⟩ := toNat_encode_fields (op.instr k.bits)
  rw [op_instr] at hop
  rw [keyBits_instr] at hkb
  have hsize : k.bits.toNat ∈ [128, 192, 256] := by cases k <;> decide
  have hne : s.src ≠ s.dst ↔ s.src.toNat ≠ s.dst.toNat := not_congr BitVec.toNat_inj.symm
  simp only [submissionError, hop, hrsvd, hkb, hsize]
  cases op
  case expand => rfl
  case encb | decb => simp [Op.code, checksOf, checkSchedule, toNat_ksSizeBits_eq_iff]
  case cbce | cbcd | ctr => simp [Op.code, checksOf, checkMessage, hne]

/-! ### The decision of a submission (R170, R171, R203) -/

theorem raiseError_idle {s : State} (h : s.seq = .idle) (e : ErrorCode) :
    raiseError e s = { s with errCode := e, done := true } := by
  rw [raiseError, ← h]

/-- Acceptance as R171 writes it: ENCB and DECB start at their block, the others at the key expansion. -/
theorem accept_eq (op : Op) (k : KeySize) (s : State) :
    accept op k s = { s with
      done := false
      errCode := .ok
      blkCnt := 0
      seq := .run
        { op := op
          kb := k
          phase := if op = .encb ∨ op = .decb then .block 0 else .expand
          src := s.src
          dst := s.dst
          nblk := s.len.toNat / 16
          work := none
          lastIn := none } } := by
  cases op <;> rfl

/-- The first failing check ends the submission with its code. -/
theorem submitWord_rejected {c : Word} {s : State} {e : ErrorCode} (hi : s.seq = .idle)
    (h : submissionError c s = some e) : submitWord c s = .next (raiseError e s) := by
  cases hd : decodeInstr c with
  | error _ =>
    rw [submissionError_of_error hd] at h
    cases h
    rw [submitWord, hd]
  | ok i =>
    rw [submitWord_ok hd, exec_idle hi]
    obtain rfl := (decodeInstr_eq_ok_iff c i).1 hd
    cases hk : keySizeOf i.keyBits with
    | none =>
      rw [submissionError_badSize hk] at h
      cases h
      rw [submit_badSize hk]
    | some k =>
      rw [← instr_op_keyBits i, keySizeOf_eq_some hk, submissionError_encode] at h
      rw [keySizeOf_eq_some hk, submit_rejected h]

/-- A word no check rejects is a command's, and the command is accepted. -/
theorem submitWord_accepted {c : Word} {s : State} (hi : s.seq = .idle) (h : submissionError c s = none) :
    ∃ (op : Op) (k : KeySize), c = encode (op.instr k.bits) ∧ submitWord c s = .next (accept op k s) := by
  cases hd : decodeInstr c with
  | error _ =>
    rw [submissionError_of_error hd] at h
    cases h
  | ok i =>
    obtain rfl := (decodeInstr_eq_ok_iff c i).1 hd
    cases hk : keySizeOf i.keyBits with
    | none =>
      rw [submissionError_badSize hk] at h
      cases h
    | some k =>
      have hinstr : i.op.instr k.bits = i := by rw [← keySizeOf_eq_some hk, instr_op_keyBits]
      refine ⟨i.op, k, by rw [hinstr], ?_⟩
      rw [← hinstr, submissionError_encode] at h
      rw [submitWord_ok hd, exec_idle hi, keySizeOf_eq_some hk, submit_accepted h]

/-- Settles O6: the write stores the word and submits it, and its submission is the command's. -/
theorem stepSubmitsTheCommandWritten : Obligations.StepSubmitsTheCommandWritten := fun _ _ _ _ hm hi hd =>
  (step_submit hm hi).trans (submitWord_ok hd _)

/-- Settles O8: while Idle by the first failing check; while BUSY the write is one of those R43 ignores. -/
theorem submissionFollowsTheChecksInOrder : Obligations.SubmissionFollowsTheChecksInOrder := by
  intro s c rest hm
  refine ⟨fun hi => ⟨fun e he => ?_, fun hn => ?_⟩, fun r hs => ?_⟩
  · rw [step_submit hm hi, submitWord_rejected (s := { s with cmd := c, moves := rest }) hi he, raiseError_idle]
    exact hi
  · obtain ⟨op, k, hc, hsub⟩ := submitWord_accepted (s := { s with cmd := c, moves := rest }) hi hn
    exact ⟨op, k, hc, by rw [step_submit hm hi, hsub, accept_eq]⟩
  · rw [step_cmdWrite hm, writeReg_busy (.inl rfl) (busy_run (s := { s with moves := rest }) hs)]
    rfl

/-- Settles O9: the submission of a command is that of its word. -/
theorem execDecidesASubmission : Obligations.ExecDecidesASubmission := by
  intro i s
  have hsubmit : exec i s = submitWord (encode i) s := (submitWord_ok (decodeInstr_encode i) s).symm
  refine ⟨fun hi => ⟨fun e he => ?_, fun hn => ?_⟩, fun r hs hne => exec_other hs hne⟩
  · rw [hsubmit, submitWord_rejected hi he, raiseError_idle hi]
  · obtain ⟨op, k, hc, hsub⟩ := submitWord_accepted hi hn
    obtain rfl : op.instr k.bits = i := by simpa using congrArg decodeInstr hc.symm
    exact ⟨k, keyBits_instr op k.bits, by rw [hsubmit, hsub, accept_eq, op_instr]⟩

/-! ### The sequencer's turn (R175, R176) -/

/-- Settles O7: the turn of a running command is its `exec`, and an Idle core has none. -/
theorem stepRunsTheRunningCommand : Obligations.StepRunsTheRunningCommand :=
  ⟨fun s _ hs => ⟨fun hm => (step_turn hm hs).trans (exec_running hs).symm,
      fun rest hm => (step_turnGiven hm hs).trans (exec_running (s := { s with moves := rest }) hs).symm⟩,
    fun _ hi hm => step_idle hm hi⟩

/-- Settles O17: the last line of R175 is normal completion. -/
theorem finishStepCompletesTheCommand : Obligations.FinishStepCompletesTheCommand := fun s _ hs hp =>
  (exec_running hs).trans (sequence_finish hp s)

end Sys2Proof.Machine
end

section
/-! PROOFS. The mode commands (43_modes.md R177 to R185): the modes on lists of blocks, and their block steps. -/

namespace Sys2Proof.Machine

/-! ### The modes on lists of blocks (R183, R184) -/

theorem xorBlock_xorBlock (a b : Block) : xorBlock (xorBlock a b) b = a :=
  Vector.ext fun n hn => by simp [xorBlock]

@[simp] theorem length_modeOutput (g : Block → Block → BlockResult) (iv : Block) (xs : List Block) :
    (modeOutput g iv xs).length = xs.length := by
  induction xs generalizing iv with
  | nil => rfl
  | cons x xs ih => rw [modeOutput, List.length_cons, List.length_cons, ih]

theorem modeOutput_append (g : Block → Block → BlockResult) (iv : Block) (xs ys : List Block) :
    modeOutput g iv (xs ++ ys) = modeOutput g iv xs ++ modeOutput g (modeFinalIv g iv xs) ys := by
  induction xs generalizing iv with
  | nil => rfl
  | cons x xs ih => rw [List.cons_append, modeOutput, modeOutput, modeFinalIv, ih, List.cons_append]

theorem modeFinalIv_append (g : Block → Block → BlockResult) (iv : Block) (xs ys : List Block) :
    modeFinalIv g iv (xs ++ ys) = modeFinalIv g (modeFinalIv g iv xs) ys := by
  induction xs generalizing iv with
  | nil => rfl
  | cons x xs ih => rw [List.cons_append, modeFinalIv, modeFinalIv, ih]

/-- Decryption chains on the ciphertext, so both directions see the same IVs. -/
theorem modeOutput_cbcd_cbce (w : List Word) (nr : Nat) (iv : Block) (xs : List Block) :
    modeOutput (cbcdBlock w nr) iv (modeOutput (cbceBlock w nr) iv xs) = xs := by
  induction xs generalizing iv with
  | nil => rfl
  | cons x xs ih => simp only [modeOutput, cbceBlock, cbcdBlock, invCipher_cipher, xorBlock_xorBlock, ih]

theorem modeFinalIv_cbcd_cbce (w : List Word) (nr : Nat) (iv : Block) (xs : List Block) :
    modeFinalIv (cbcdBlock w nr) iv (modeOutput (cbceBlock w nr) iv xs) = modeFinalIv (cbceBlock w nr) iv xs := by
  induction xs generalizing iv with
  | nil => simp only [modeOutput, modeFinalIv]
  | cons x xs ih => simp only [modeOutput, modeFinalIv, cbceBlock, cbcdBlock, ih]

/-- The keystream does not depend on the message. -/
theorem modeOutput_ctr_ctr (w : List Word) (nr : Nat) (iv : Block) (xs : List Block) :
    modeOutput (ctrBlock w nr) iv (modeOutput (ctrBlock w nr) iv xs) = xs := by
  induction xs generalizing iv with
  | nil => rfl
  | cons x xs ih => simp only [modeOutput, ctrBlock, xorBlock_xorBlock, ih]

/-- Settles O24. -/
theorem modesUndoThemselves : Obligations.ModesUndoThemselves := fun w nr iv xs =>
  ⟨modeOutput_cbcd_cbce w nr iv xs, modeFinalIv_cbcd_cbce w nr iv xs, modeOutput_ctr_ctr w nr iv xs⟩

theorem be128_modeFinalIv_ctr (w : List Word) (nr : Nat) (iv : Block) (xs : List Block) :
    be128 (modeFinalIv (ctrBlock w nr) iv xs) = (be128 iv + xs.length) % 2 ^ 128 := by
  induction xs generalizing iv with
  | nil => exact (Nat.mod_eq_of_lt (be128_lt iv)).symm
  | cons x xs ih =>
    rw [modeFinalIv, ih, ctrBlock, be128_nextCounter, Nat.mod_add_mod, List.length_cons, Nat.add_assoc, Nat.add_comm 1]

/-- Settles O25: the blocks before block `i` leave it the counter `N0 + i`. -/
theorem ctrCounterIsTheWholeInteger : Obligations.CtrCounterIsTheWholeInteger := by
  intro w nr iv xs
  refine ⟨be128_modeFinalIv_ctr w nr iv xs, fun i hi => ?_⟩
  have hlen : (xs.take i).length = i := List.length_take_of_le hi.le
  have hcounter : toBe128 ((be128 iv + i) % 2 ^ 128) = modeFinalIv (ctrBlock w nr) iv (xs.take i) := by
    rw [← toBe128_be128 (modeFinalIv _ _ _), be128_modeFinalIv_ctr, hlen]
  have hsplit : xs = xs.take i ++ xs[i] :: xs.drop (i + 1) := by
    rw [← List.drop_eq_getElem_cons hi, List.take_append_drop]
  have hout := modeOutput_append (ctrBlock w nr) iv (xs.take i) (xs[i] :: xs.drop (i + 1))
  rw [← hsplit] at hout
  rw [hout, List.getElem?_append_right (by simp [hlen]), length_modeOutput, hlen, Nat.sub_self, hcounter]
  rfl

/-! ### The block step (R177, R180 to R182) -/

/-- In `Block(i)` a mode command takes its mode's block step (R175). -/
theorem sequence_block {r : Run} {f : List Word → Nat → Block → Block → BlockResult} {i : Nat}
    (hf : BlockFunction r.op f) (hp : r.phase = .block i) (s : State) :
    sequenceOf r.op r s = modeBlockStep f r i s := by
  generalize hop : r.op = op at hf
  cases hf <;> simp only [sequenceOf, modeSequence, hp]

/-- The block step of a mode command, by `exec`, when its addresses exist and its requests are admitted. -/
theorem exec_blockStep {s : State} {r : Run} {op : Op} {k : KeySize} {i : Nat}
    {f : List Word → Nat → Block → Block → BlockResult} (hf : BlockFunction op f) (hs : s.seq = .run r) (hop : r.op = op)
    (hk : r.kb = k) (hp : r.phase = .block i) (hsrc : blockAddress r.src i + 16 ≤ memorySize)
    (hdst : blockAddress r.dst i + 16 ≤ memorySize) (hread : memOk s.platform .read (blockAddress r.src i) = true)
    (hwrite : memOk s.platform .write (blockAddress r.dst i) = true) :
    exec (op.instr k.bits) s = .next (finishBlock (blockResult f r i s) r i s) := by
  subst hop hk
  exact ((exec_running hs).trans (sequence_block hf hp s)).trans (modeBlockStep_done hsrc hdst hread hwrite)

/-- Settles O13, with the block function of CBCE. -/
theorem cbceBlockStepEncryptsAndChains : Obligations.CbceBlockStepEncryptsAndChains := by
  rintro s r _ i hs hop rfl hp hsrc hdst hread hwrite _ rfl
  exact exec_blockStep .cbce hs hop rfl hp hsrc hdst hread hwrite

/-- Settles O14, with the block function of CBCD. -/
theorem cbcdBlockStepDecryptsAndChains : Obligations.CbcdBlockStepDecryptsAndChains := by
  rintro s r _ i hs hop rfl hp hsrc hdst hread hwrite _ _ rfl rfl
  exact exec_blockStep .cbcd hs hop rfl hp hsrc hdst hread hwrite

/-- A block is the next counter when its number is the next one. -/
theorem eq_nextCounter {b n : Block} (h : be128 n = (be128 b + 1) % 2 ^ 128) : n = nextCounter b := by
  rw [nextCounter, ← h, toBe128_be128]

/-- Settles O15, with the block function of CTR. -/
theorem ctrBlockStepXorsTheKeystream : Obligations.CtrBlockStepXorsTheKeystream := by
  rintro s r _ i hs hop rfl hp hsrc hdst hread hwrite _ n rfl hn
  obtain rfl := eq_nextCounter hn
  exact exec_blockStep .ctr hs hop rfl hp hsrc hdst hread hwrite

end Sys2Proof.Machine
end

section
/-! PROOFS. A running command goes on to its end (43_modes.md R175; 70_reset_and_hazards.md R246): its step always answers a next
state, and every step brings the end nearer. -/

namespace Sys2Proof.Machine

/-! ### Where a message lies (R202) -/

/-- The `n` blocks at `src` and at `dst` exist, and the two messages are one and the same or share no byte (R77, R210, R211). -/
structure MessageFits (src dst n : Nat) : Prop where
  srcInside : src + 16 * n ≤ memorySize
  dstInside : dst + 16 * n ≤ memorySize
  apart : src = dst ∨ src + 16 * n ≤ dst ∨ dst + 16 * n ≤ src

/-- The checks 4 to 6 pass exactly for whole blocks that fit. -/
theorem checkMessage_eq_none_iff (k : KeySize) (s : State) :
    checkMessage k s = none ↔ s.len.toNat % 16 = 0 ∧ MessageFits s.src.toNat s.dst.toNat (s.len.toNat / 16) := by
  have hsrc : s.src.toNat < memorySize := s.src.isLt
  have hdst : s.dst.toNat < memorySize := s.dst.isLt
  refine ⟨fun h => ?_, fun ⟨hlen, hfit⟩ => ?_⟩
  · obtain ⟨hlen, hin, hapart⟩ := checkMessage_none h
    have hblocks : 16 * (s.len.toNat / 16) = s.len.toNat := by omega
    obtain hz | hpos := Nat.eq_zero_or_pos s.len.toNat
    · exact ⟨hlen, by omega, by omega, by omega⟩
    · exact ⟨hlen, by rw [hblocks]; exact (hin hpos).1, by rw [hblocks]; exact (hin hpos).2,
        by rw [hblocks]; exact (hapart hpos).imp_left (congrArg BitVec.toNat)⟩
  · have hblocks : 16 * (s.len.toNat / 16) = s.len.toNat := by omega
    obtain ⟨hs, hd, hapart⟩ := hfit
    rw [hblocks] at hs hd hapart
    have hne : s.src ≠ s.dst → s.src.toNat ≠ s.dst.toNat := mt BitVec.eq_of_toNat_eq
    rw [checkMessage, if_neg (by omega), if_neg (by unfold memorySize at *; omega), if_neg]
    rintro ⟨-, h, hoverlap⟩
    have := hne h
    omega

/-- Every block of such a message exists. -/
theorem MessageFits.block_inside {src dst : Word} {n i : Nat} (h : MessageFits src.toNat dst.toNat n) (hi : i < n) :
    blockAddress src i + 16 ≤ memorySize ∧ blockAddress dst i + 16 ≤ memorySize := by
  obtain ⟨hs, hd, -⟩ := h
  unfold blockAddress
  omega

/-! ### The step answers a next state -/

theorem exists_blockFunction {op : Op} (h : isMode op = true) : ∃ f, BlockFunction op f := by
  cases op
  case cbce => exact ⟨_, .cbce⟩
  case cbcd => exact ⟨_, .cbcd⟩
  case ctr => exact ⟨_, .ctr⟩
  all_goals cases h

theorem exists_singleBlockFunction {op : Op} (h : op = .encb ∨ op = .decb) : ∃ f, SingleBlockFunction op f := by
  obtain rfl | rfl := h
  · exact ⟨_, .encb⟩
  · exact ⟨_, .decb⟩

/-- A block step inside memory answers a next state, whatever the memory admits. -/
theorem modeBlockStep_next {r : Run} {i : Nat} {s : State} (f : List Word → Nat → Block → Block → BlockResult)
    (hin : blockAddress r.src i + 16 ≤ memorySize ∧ blockAddress r.dst i + 16 ≤ memorySize) :
    ∃ t, modeBlockStep f r i s = .next t := by
  obtain ⟨-, hout⟩ | ⟨h, -⟩ | ⟨h, -⟩ := modeBlockStep_cases f r i s
  · exact absurd hin hout
  · exact ⟨_, h⟩
  · exact ⟨_, h⟩

/-- The message of a running mode command fits. -/
theorem RunHolds.fits {r : Run} {s : State} (h : RunHolds r s) (hm : isMode r.op = true) :
    MessageFits r.src.toNat r.dst.toNat r.nblk := by
  rw [h.srcLatched, h.dstLatched, h.nblkLatched]
  exact ((checkMessage_eq_none_iff r.kb s).1 (h.message hm)).2

/-- R175 has a line for every phase a run can stand in. -/
theorem sequence_next {r : Run} {s : State} (h : RunHolds r s) : ∃ t, sequenceOf r.op r s = .next t := by
  have hph := h.phase
  cases hp : r.phase with
  | expand =>
    simp only [phaseHolds, hp] at hph
    exact ⟨_, sequence_expand hph.1 hp s⟩
  | finish => exact ⟨_, sequence_finish hp s⟩
  | block i =>
    simp only [phaseHolds, hp] at hph
    obtain ⟨-, -, ⟨hm, hi⟩ | ⟨hop, rfl⟩⟩ := hph
    · obtain ⟨f, hf⟩ := exists_blockFunction hm
      rw [sequence_block hf hp]
      exact modeBlockStep_next f ((h.fits hm).block_inside hi)
    · obtain ⟨f, hf⟩ := exists_singleBlockFunction hop
      exact ⟨_, sequence_singleBlock hf hp s⟩

/-- Settles O29. -/
theorem runningCommandNeverStops : Obligations.RunningCommandNeverStops := fun _ r hinv hs =>
  (exec_running hs).symm ▸ sequence_next (hinv.run r hs)

/-! ### The end comes nearer -/

/-- A bound on the sequencer steps a run has still to take (R174). -/
def Run.stepsLeft (r : Run) : Nat :=
  match r.phase with
  | .expand => r.nblk + 2
  | .block i => max (r.nblk - i) 1 + 1
  | .finish => 1

theorem Run.stepsLeft_pos (r : Run) : 0 < r.stepsLeft := by
  unfold Run.stepsLeft
  split <;> omega

theorem Run.stepsLeft_le (r : Run) : r.stepsLeft ≤ r.nblk + 2 := by
  unfold Run.stepsLeft
  split <;> omega

/-- The key expansion leaves the blocks of a message, and else only Finish. -/
theorem stepsLeft_expandPhase {r : Run} (hp : r.phase = .expand) :
    Run.stepsLeft { r with phase := if r.op = .expand ∨ r.nblk = 0 then .finish else .block 0 } < r.stepsLeft := by
  by_cases h : r.op = .expand ∨ r.nblk = 0
  · simp only [Run.stepsLeft, if_pos h, hp]
    omega
  · simp only [Run.stepsLeft, if_neg h, hp]
    omega

/-- A block step leaves one block less, and else only Finish. -/
theorem stepsLeft_phaseAfter {r : Run} {i : Nat} {work lastIn : Option Block} (hp : r.phase = .block i) :
    Run.stepsLeft { r with phase := phaseAfter r.nblk i, work := work, lastIn := lastIn } < r.stepsLeft := by
  by_cases h : i + 1 < r.nblk
  · simp only [Run.stepsLeft, phaseAfter, if_pos h, hp]
    omega
  · simp only [Run.stepsLeft, phaseAfter, if_neg h, hp]
    omega

/-- A step of the running command completes it, with an error or without, or leaves it fewer steps. -/
theorem sequence_progress {r : Run} {s t : State} (h : sequenceOf r.op r s = .next t) :
    (t.seq = .idle ∧ t.done = true) ∨ ∃ r', t.seq = .run r' ∧ r'.stepsLeft < r.stepsLeft := by
  obtain ⟨hp, -, rfl⟩ | ⟨hp, -, f, rfl⟩ | ⟨i, f, hp, -, ⟨rfl, -⟩ | ⟨rfl, -⟩⟩ | ⟨-, rfl⟩ := sequence_cases h
  · exact .inr ⟨_, rfl, stepsLeft_expandPhase hp⟩
  · refine .inr ⟨_, rfl, ?_⟩
    simp only [Run.stepsLeft, hp]
    omega
  · exact .inl ⟨rfl, rfl⟩
  · exact .inr ⟨_, rfl, stepsLeft_phaseAfter hp⟩
  · exact .inl ⟨rfl, rfl⟩

/-- Left to itself, a running command completes within the steps it has left. -/
theorem runSteps_completes {n : Nat} {s : State} {r : Run} (hinv : s.Inv) (hs : s.seq = .run r) (hm : s.moves = [])
    (hn : r.stepsLeft ≤ n) : ∃ m t, m ≤ n ∧ runSteps m s = .next t ∧ t.seq = .idle ∧ t.done = true := by
  induction n generalizing s r with
  | zero => exact absurd hn (by have := r.stepsLeft_pos; omega)
  | succ n ih =>
    obtain ⟨s', hseq⟩ := sequence_next (hinv.run r hs)
    have hstep : step s = .next s' := (step_turn hm hs).trans hseq
    obtain ⟨hi, hd⟩ | ⟨r', hs', hless⟩ := sequence_progress hseq
    · exact ⟨1, s', by omega, runSteps_succ hstep 0, hi, hd⟩
    · have hm' : s'.moves = [] := (sequence_commandFrame hseq).inputs.moves.trans hm
      obtain ⟨m, t, hle, hrun, hend⟩ := ih (stepKeepsTheInvariant s s' hinv hstep) hs' hm' (by omega)
      exact ⟨m + 1, t, by omega, (runSteps_succ hstep m).trans hrun, hend⟩

/-- Settles O30. -/
theorem runEndsWithinItsBound : Obligations.RunEndsWithinItsBound := fun _ r hinv hs hm =>
  runSteps_completes hinv hs hm r.stepsLeft_le

end Sys2Proof.Machine
end

section
/-! PROOFS. Whole mode commands (43_modes.md R174 to R178, R185; 20_memory.md R72, R77): the message in memory, the run of a command
block by block, and a message split over two commands. -/

namespace Sys2Proof.Machine

/-! ### Blocks in memory (R60) -/

/-- Addresses rise, so that a byte reads as it was last written. -/
abbrev Memory.Rising (m : Memory) : Prop := m.Pairwise (fun c d => c.1 < d.1)

/-- Blocks written one after the other from `a`. -/
def Memory.writeBlocks (m : Memory) (a : Nat) : List Block → Memory
  | [] => m
  | b :: bs => Memory.writeBlocks (m.writeBlock a b) (a + 16) bs

theorem rising_writeBlock {m : Memory} (h : m.Rising) (a : Nat) (b : Block) : (m.writeBlock a b).Rising :=
  writeBytes_pairwise h a b.toList

theorem rising_writeBlocks {m : Memory} (h : m.Rising) (a : Nat) (bs : List Block) : (m.writeBlocks a bs).Rising := by
  induction bs generalizing m a with
  | nil => exact h
  | cons b bs ih => exact ih (rising_writeBlock h a b) (a + 16)

theorem writeBlocks_append (m : Memory) (a : Nat) (bs cs : List Block) :
    m.writeBlocks a (bs ++ cs) = (m.writeBlocks a bs).writeBlocks (a + 16 * bs.length) cs := by
  induction bs generalizing m a with
  | nil => rfl
  | cons b bs ih =>
    have haddr : a + 16 + 16 * bs.length = a + 16 * (b :: bs).length := by rw [List.length_cons]; omega
    rw [List.cons_append, Memory.writeBlocks, ih, haddr, Memory.writeBlocks]

theorem readByte_writeBlocks_apart {m : Memory} (h : m.Rising) {a x : Nat} {bs : List Block}
    (hx : x < a ∨ a + 16 * bs.length ≤ x) : (m.writeBlocks a bs).readByte x = m.readByte x := by
  induction bs generalizing m a with
  | nil => rfl
  | cons b bs ih =>
    rw [List.length_cons] at hx
    rw [Memory.writeBlocks, ih (rising_writeBlock h a b) (by omega), readByte_writeBlock h, dif_neg (by omega)]

theorem readBlock_writeBlocks_apart {m : Memory} (h : m.Rising) {a x : Nat} {bs : List Block}
    (hx : x + 16 ≤ a ∨ a + 16 * bs.length ≤ x) : (m.writeBlocks a bs).readBlock x = m.readBlock x := by
  refine Vector.ext fun j hj => ?_
  rw [readBlock_getElem, readBlock_getElem, readByte_writeBlocks_apart h (by omega)]

theorem messageBlocks_add (m : Memory) (a n1 n2 : Nat) :
    messageBlocks m a (n1 + n2) = messageBlocks m a n1 ++ messageBlocks m (a + 16 * n1) n2 := by
  simp only [messageBlocks, List.range_add, List.map_append, List.map_map, Function.comp_def, Nat.mul_add, Nat.add_assoc]

@[simp] theorem length_messageBlocks (m : Memory) (a n : Nat) : (messageBlocks m a n).length = n := by
  rw [messageBlocks, List.length_map, List.length_range]

theorem messageBlocks_zero (m : Memory) (a : Nat) : messageBlocks m a 0 = [] := rfl

theorem messageBlocks_one (m : Memory) (a : Nat) : messageBlocks m a 1 = [m.readBlock a] := rfl

/-- Blocks read back as they were written. -/
theorem messageBlocks_writeBlocks_same {m : Memory} (h : m.Rising) (a : Nat) (bs : List Block) :
    messageBlocks (m.writeBlocks a bs) a bs.length = bs := by
  induction bs generalizing m a with
  | nil => rfl
  | cons b bs ih =>
    have hrest := rising_writeBlock h a b
    rw [List.length_cons, Nat.add_comm, messageBlocks_add, messageBlocks_one, Memory.writeBlocks, ih hrest,
      readBlock_writeBlocks_apart hrest (.inl le_rfl), readBlock_writeBlock_same h, List.singleton_append]

/-- A message that shares no byte with the written blocks reads as before. -/
theorem messageBlocks_writeBlocks_apart {m : Memory} (h : m.Rising) {a x n : Nat} {bs : List Block}
    (hx : x + 16 * n ≤ a ∨ a + 16 * bs.length ≤ x) : messageBlocks (m.writeBlocks a bs) x n = messageBlocks m x n := by
  refine List.map_congr_left fun i hi => ?_
  have hi := List.mem_range.1 hi
  exact readBlock_writeBlocks_apart h (by omega)

/-! ### What a mode leaves of a message (R177, R178) -/

/-- Memory with the output of the first `n` blocks of the message at `src` written at `dst`. -/
def messageOutput (g : Block → Block → BlockResult) (iv : Block) (m : Memory) (src dst n : Nat) : Memory :=
  m.writeBlocks dst (modeOutput g iv (messageBlocks m src n))

/-- The IV after the first `n` blocks of the message at `src`. -/
def messageIv (g : Block → Block → BlockResult) (iv : Block) (m : Memory) (src n : Nat) : Block :=
  modeFinalIv g iv (messageBlocks m src n)

theorem rising_messageOutput {m : Memory} (h : m.Rising) (g : Block → Block → BlockResult) (iv : Block)
    (src dst n : Nat) : (messageOutput g iv m src dst n).Rising :=
  rising_writeBlocks h _ _

theorem MessageFits.mono {src dst n n' : Nat} (h : MessageFits src dst n) (hle : n' ≤ n) : MessageFits src dst n' := by
  obtain ⟨hs, hd, hapart⟩ := h
  constructor <;> omega

theorem MessageFits.rest {src dst n1 n2 : Nat} (h : MessageFits src dst (n1 + n2)) :
    MessageFits (src + 16 * n1) (dst + 16 * n1) n2 := by
  obtain ⟨hs, hd, hapart⟩ := h
  constructor <;> omega

section
variable (g : Block → Block → BlockResult) (iv : Block) {m : Memory} {src dst n1 n2 : Nat} (hrise : m.Rising)
  (hfit : MessageFits src dst (n1 + n2))
include hrise hfit

/-- The output of the first blocks touches none of the later blocks of the message, in place or apart (R77). -/
theorem messageBlocks_messageOutput :
    messageBlocks (messageOutput g iv m src dst n1) (src + 16 * n1) n2 = messageBlocks m (src + 16 * n1) n2 := by
  refine messageBlocks_writeBlocks_apart hrise ?_
  rw [length_modeOutput, length_messageBlocks]
  obtain ⟨-, -, hapart⟩ := hfit
  omega

/-- The later blocks go on from the memory and the IV the first ones left. -/
theorem messageOutput_add : messageOutput g iv m src dst (n1 + n2) =
    messageOutput g (messageIv g iv m src n1) (messageOutput g iv m src dst n1) (src + 16 * n1) (dst + 16 * n1) n2 := by
  rw [messageOutput, messageBlocks_add, modeOutput_append, writeBlocks_append, length_modeOutput, length_messageBlocks,
    messageOutput, messageBlocks_messageOutput g iv hrise hfit]
  rfl

theorem messageIv_add : messageIv g iv m src (n1 + n2) =
    messageIv g (messageIv g iv m src n1) (messageOutput g iv m src dst n1) (src + 16 * n1) n2 := by
  rw [messageIv, messageBlocks_add, modeFinalIv_append, messageIv, messageBlocks_messageOutput g iv hrise hfit]
  rfl

end

section
variable (g : Block → Block → BlockResult) (iv : Block) {m : Memory} {src dst n i : Nat} (hrise : m.Rising)
  (hfit : MessageFits src dst n) (hi : i < n)
include hrise hfit hi

/-- Block `i` is still the message's when the blocks before it are written. -/
theorem readBlock_messageOutput :
    (messageOutput g iv m src dst i).readBlock (src + 16 * i) = m.readBlock (src + 16 * i) :=
  List.head_eq_of_cons_eq (messageBlocks_messageOutput g iv (n2 := 1) hrise (hfit.mono hi))

theorem messageOutput_succ : messageOutput g iv m src dst (i + 1) = (messageOutput g iv m src dst i).writeBlock
    (dst + 16 * i) (g (m.readBlock (src + 16 * i)) (messageIv g iv m src i)).out := by
  rw [messageOutput_add g iv hrise (hfit.mono hi), ← readBlock_messageOutput g iv hrise hfit hi]
  rfl

end

theorem messageIv_succ (g : Block → Block → BlockResult) (iv : Block) (m : Memory) (src i : Nat) :
    messageIv g iv m src (i + 1) = (g (m.readBlock (src + 16 * i)) (messageIv g iv m src i)).iv := by
  rw [messageIv, messageBlocks_add, modeFinalIv_append]
  rfl

/-! ### Turns of the sequencer (R175) -/

/-- The next `n` steps are the sequencer's: no other move is among the next `n`. -/
def TurnsNext (n : Nat) (ms : List Move) : Prop := ∀ m ∈ ms.take n, m = .sequencer

theorem turnsNext_add (n1 n2 : Nat) (ms : List Move) :
    TurnsNext (n1 + n2) ms ↔ TurnsNext n1 ms ∧ TurnsNext n2 (ms.drop n1) := by
  simp only [TurnsNext, List.take_add, List.forall_mem_append]

theorem turnsNext_nil (n : Nat) : TurnsNext n [] := by simp [TurnsNext]

theorem turnsNext_replicate (n : Nat) (ms : List Move) : TurnsNext n (List.replicate n .sequencer ++ ms) := by
  intro m hm
  rw [List.take_left' List.length_replicate] at hm
  exact List.eq_of_mem_replicate hm

/-- The state with its next move, if it has one, taken. -/
def State.moveTaken (s : State) : State := { s with moves := s.moves.drop 1 }

/-- On its turn the sequencer takes the running command's step, and the move that gave the turn is taken. -/
theorem step_turnNext {s : State} {r : Run} (h : TurnsNext 1 s.moves) (hs : s.seq = .run r) :
    step s = sequenceOf r.op r s.moveTaken := by
  cases hm : s.moves with
  | nil => rw [step_turn hm hs, State.moveTaken, hm, List.drop_nil, ← hm]
  | cons m rest =>
    obtain rfl : m = .sequencer := h m (by simp [hm])
    rw [step_turnGiven hm hs, State.moveTaken, hm]
    rfl

/-! ### A mode command, block by block -/

/-- Where a mode command of `n` blocks stands after `i` of them (R175). -/
def phaseAt (n i : Nat) : Phase := if i < n then .block i else .finish

theorem expandPhase_of_isMode {r : Run} (h : isMode r.op = true) (s : State) :
    expandPhase r s = enterPhase r (phaseAt r.nblk 0) (expandStep r.kb s) := by
  have hne : r.op ≠ .expand := fun hop => by simp [hop, isMode] at h
  rw [expandPhase, phaseAt]
  by_cases hz : r.nblk = 0
  · rw [if_pos (.inr hz), if_neg (by omega)]
  · rw [if_neg (not_or.2 ⟨hne, hz⟩), if_pos (by omega)]

/-- The mode's function on blocks, with the schedule of KEY (R178, R179). -/
def modeFn (f : List Word → Nat → Block → Block → BlockResult) (k : KeySize) (s : State) : Block → Block → BlockResult :=
  f (keyExpansion (keyWords s.key k) k) k.nr

/-- The run of a mode command submitted in `s`, after `j` block steps. -/
def State.runAfter (op : Op) (k : KeySize) (j : Nat) (work lastIn : Option Block) (s : State) : Run :=
  { startRun op k s with phase := phaseAt (s.len.toNat / 16) j, work := work, lastIn := lastIn }

/-- What the mode gives for block `j` of the message in `s`. -/
def State.modeResult (f : List Word → Nat → Block → Block → BlockResult) (k : KeySize) (j : Nat) (s : State) :
    BlockResult :=
  modeFn f k s (s.mem.readBlock (blockAddress s.src j))
    (messageIv (modeFn f k s) (blockOfWords s.iv) s.mem s.src.toNat j)

/-- The state of a mode command submitted in `s`, after the key expansion and `j` block steps. -/
def State.afterBlocks (f : List Word → Nat → Block → Block → BlockResult) (op : Op) (k : KeySize) (j : Nat)
    (work lastIn : Option Block) (s : State) : State :=
  { s with
    moves := s.moves.drop (j + 2)
    cmd := encode (op.instr k.bits)
    mem := messageOutput (modeFn f k s) (blockOfWords s.iv) s.mem s.src.toNat s.dst.toNat j
    iv := wordsOfBlock (messageIv (modeFn f k s) (blockOfWords s.iv) s.mem s.src.toNat j)
    rk := roundKeyStore s.key k
    ksSize := some k
    blkCnt := BitVec.ofNat 32 j
    errCode := .ok
    done := false
    seq := .run (s.runAfter op k j work lastIn) }

/-- The state of a mode command submitted in `s`, once it completed its `n` blocks with memory `m` and the IV `iv`. -/
def State.completedWith (op : Op) (k : KeySize) (n : Nat) (m : Memory) (iv : Block) (s : State) : State :=
  { s with
    moves := s.moves.drop (n + 3)
    cmd := encode (op.instr k.bits)
    mem := m
    iv := wordsOfBlock iv
    rk := roundKeyStore s.key k
    ksSize := some k
    blkCnt := BitVec.ofNat 32 n
    errCode := .ok
    done := true }

/-- The state of a mode command submitted in `s`, once it transformed its message of `n` blocks. -/
def State.messageDone (f : List Word → Nat → Block → Block → BlockResult) (op : Op) (k : KeySize) (n : Nat) (s : State) :
    State :=
  s.completedWith op k n (messageOutput (modeFn f k s) (blockOfWords s.iv) s.mem s.src.toNat s.dst.toNat n)
    (messageIv (modeFn f k s) (blockOfWords s.iv) s.mem s.src.toNat n)

/-- An Idle core is about to be given a mode command whose message of `n` blocks passes the checks. -/
structure MessageSubmitted (op : Op) (f : List Word → Nat → Block → Block → BlockResult) (k : KeySize) (n : Nat)
    (s : State) : Prop where
  mode : BlockFunction op f
  idle : s.seq = .idle
  rising : s.mem.Rising
  len : s.len.toNat = 16 * n
  fits : MessageFits s.src.toNat s.dst.toNat n
  move : s.moves = cmdWrite s.platform (encode (op.instr k.bits)) :: s.moves.drop 1

theorem BlockFunction.buildsSchedule {op : Op} {f : List Word → Nat → Block → Block → BlockResult}
    (hf : BlockFunction op f) : buildsSchedule op = true := by
  cases hf <;> rfl

section
variable {op : Op} {f : List Word → Nat → Block → Block → BlockResult} {k : KeySize} {n : Nat} {s : State}
  (h : MessageSubmitted op f k n s)
include h

theorem MessageSubmitted.nblk : s.len.toNat / 16 = n := by
  rw [h.len, Nat.mul_div_cancel_left n (by decide)]

theorem MessageSubmitted.checks : checkMessage k s = none := by
  rw [checkMessage_eq_none_iff, h.nblk, h.len]
  exact ⟨Nat.mul_mod_right 16 n, h.fits⟩

theorem MessageSubmitted.phase_runAfter (j : Nat) (work lastIn : Option Block) :
    (s.runAfter op k j work lastIn).phase = phaseAt n j := by
  rw [State.runAfter, h.nblk]

/-- The length of the first `i` blocks is a value of LEN. -/
theorem MessageSubmitted.toNat_length {i : Nat} (hi : i ≤ n) : (BitVec.ofNat 32 (16 * i)).toNat = 16 * i := by
  have hlt := s.len.isLt
  have hlen := h.len
  exact (BitVec.toNat_ofNat _ _).trans (Nat.mod_eq_of_lt (by omega))

/-- Acceptance and the key expansion: no block is done yet. -/
theorem MessageSubmitted.runSteps_expand (hturn : TurnsNext 1 (s.moves.drop 1)) :
    runSteps 2 s = .next (s.afterBlocks f op k 0 none none) := by
  have hbuilds := h.mode.buildsSchedule
  have hchecks := checksOf_of_isMode h.mode.isMode
  rw [runSteps_succ (step_accept h.idle h.move ((congrFun₂ hchecks _ _).trans h.checks)),
    runSteps_succ ((step_turnNext hturn rfl).trans (sequence_expand hbuilds (if_pos hbuilds) _)), runSteps_zero,
    expandPhase_of_isMode h.mode.isMode]
  simp only [State.afterBlocks, messageOutput, messageIv, messageBlocks_zero, modeOutput, modeFinalIv, Memory.writeBlocks,
    wordsOfBlock_blockOfWords, State.moveTaken, accept_moves, List.drop_drop]
  rfl

/-- What the mode gives for block `j`: the block read is still the message's (R77). -/
theorem MessageSubmitted.blockResult_afterBlocks {j : Nat} (hj : j < n) (work lastIn : Option Block) :
    blockResult f (s.runAfter op k j work lastIn) j (s.afterBlocks f op k j work lastIn).moveTaken =
      s.modeResult f k j := by
  have hread := readBlock_messageOutput (modeFn f k s) (blockOfWords s.iv) h.rising h.fits hj
  simp only [blockResult, schedule, State.moveTaken, State.afterBlocks, State.runAfter, startRun, take_roundKeyStore,
    blockOfWords_wordsOfBlock, blockAddress, hread]
  rfl

/-- Block `j` finished, on top of the blocks before it. -/
theorem MessageSubmitted.finishBlock_afterBlocks {j : Nat} (hj : j < n) (work lastIn : Option Block) :
    finishBlock (s.modeResult f k j) (s.runAfter op k j work lastIn) j (s.afterBlocks f op k j work lastIn).moveTaken =
      s.afterBlocks f op k (j + 1) (some (s.modeResult f k j).work) (s.modeResult f k j).lastIn := by
  have hmoves : (s.moves.drop (j + 2)).drop 1 = s.moves.drop (j + 1 + 2) := List.drop_drop
  simp only [finishBlock, State.moveTaken, State.afterBlocks, hmoves, messageOutput_succ _ _ h.rising h.fits hj,
    messageIv_succ]
  rfl

/-- A block step whose requests are admitted (R177). -/
theorem MessageSubmitted.step_block {j : Nat} (hj : j < n) (hreq : requestsAdmitted s.platform s.src s.dst (j + 1))
    (hturn : TurnsNext 1 (s.moves.drop (j + 2))) (work lastIn : Option Block) :
    step (s.afterBlocks f op k j work lastIn) =
      .next (s.afterBlocks f op k (j + 1) (some (s.modeResult f k j).work) (s.modeResult f k j).lastIn) := by
  obtain ⟨hsrc, hdst⟩ := h.fits.block_inside hj
  obtain ⟨hread, hwrite⟩ := hreq j (Nat.lt_succ_self j)
  have hphase := (h.phase_runAfter j work lastIn).trans (if_pos hj)
  have hdone := modeBlockStep_done (f := f) (r := s.runAfter op k j work lastIn)
    (s := (s.afterBlocks f op k j work lastIn).moveTaken) hsrc hdst hread hwrite
  rw [h.blockResult_afterBlocks hj, h.finishBlock_afterBlocks hj] at hdone
  exact ((step_turnNext hturn rfl).trans (sequence_block h.mode hphase _)).trans hdone

/-- The run of the command up to block `j` (R174). -/
theorem MessageSubmitted.runSteps_blocks {j : Nat} (hj : j ≤ n) (hreq : requestsAdmitted s.platform s.src s.dst j)
    (hturn : TurnsNext (j + 1) (s.moves.drop 1)) :
    ∃ work lastIn, runSteps (j + 2) s = .next (s.afterBlocks f op k j work lastIn) := by
  induction j with
  | zero => exact ⟨none, none, h.runSteps_expand hturn⟩
  | succ j ih =>
    obtain ⟨hturns, hlast⟩ := (turnsNext_add (j + 1) 1 _).1 hturn
    rw [List.drop_drop] at hlast
    obtain ⟨work, lastIn, hrun⟩ := ih (by omega) (fun i hi => hreq i (by omega)) hturns
    have hstep := h.step_block hj hreq (by rwa [Nat.add_comm 1] at hlast) work lastIn
    exact ⟨_, _, by rw [Nat.add_right_comm, runSteps_add hrun 1, runSteps_succ hstep, runSteps_zero]⟩

/-- The run of the whole command: submission, key expansion, the blocks, completion (R174, R176). -/
theorem MessageSubmitted.runSteps_message (hreq : requestsAdmitted s.platform s.src s.dst n)
    (hturn : TurnsNext (n + 2) (s.moves.drop 1)) : runSteps (n + 3) s = .next (s.messageDone f op k n) := by
  obtain ⟨hturns, hlast⟩ := (turnsNext_add (n + 1) 1 _).1 hturn
  rw [List.drop_drop] at hlast
  obtain ⟨work, lastIn, hrun⟩ := h.runSteps_blocks le_rfl hreq hturns
  have hphase := (h.phase_runAfter n work lastIn).trans (if_neg (lt_irrefl n))
  rw [runSteps_add hrun 1, runSteps_succ ((step_turnNext (by rwa [Nat.add_comm 1] at hlast) rfl).trans
    (sequence_finish hphase _)), runSteps_zero]
  have hmoves : (s.moves.drop (n + 2)).drop 1 = s.moves.drop (n + 3) := List.drop_drop
  simp only [complete, State.moveTaken, State.afterBlocks, State.messageDone, State.completedWith, hmoves, h.idle]

end

/-- A mode command on its way into an Idle core, by the checks of R202. -/
theorem messageSubmitted_of_checks {op : Op} {f : List Word → Nat → Block → Block → BlockResult} {k : KeySize} {n : Nat}
    {s : State} {rest : List Move} (hf : BlockFunction op f) (hi : s.seq = .idle) (hwf : s.mem.wf)
    (hn : n = s.len.toNat / 16) (hsub : submissionError (encode (op.instr k.bits)) s = none)
    (hm : s.moves = cmdWrite s.platform (encode (op.instr k.bits)) :: rest) : MessageSubmitted op f k n s := by
  rw [submissionError_encode, checksOf_of_isMode hf.isMode, checkMessage_eq_none_iff, ← hn] at hsub
  obtain ⟨hmod, hfits⟩ := hsub
  exact ⟨hf, hi, hwf.1, by omega, hfits, by rw [hm]; rfl⟩

/-- Settles O22: the run block by block, and what the written blocks leave of memory. -/
theorem modeCommandTransformsTheMessage : Obligations.ModeCommandTransformsTheMessage := by
  intro op f k s n hf hi hwf hn hsub hreq hm
  have h := messageSubmitted_of_checks hf hi hwf hn hsub hm
  have hlen : (modeOutput (modeFn f k s) (blockOfWords s.iv) (messageBlocks s.mem s.src.toNat n)).length = n := by
    rw [length_modeOutput, length_messageBlocks]
  have hsame := messageBlocks_writeBlocks_same h.rising s.dst.toNat
    (modeOutput (modeFn f k s) (blockOfWords s.iv) (messageBlocks s.mem s.src.toNat n))
  rw [hlen] at hsame
  refine ⟨messageOutput (modeFn f k s) (blockOfWords s.iv) s.mem s.src.toNat s.dst.toNat n, hsame, fun a ha => ?_, ?_⟩
  · exact readByte_writeBlocks_apart h.rising (by rwa [hlen])
  · rw [h.runSteps_message hreq (by rw [hm]; exact turnsNext_nil _), State.messageDone, State.completedWith, hm]
    rfl

/-! ### A message split over two commands (R185) -/

/-- An address register moved on by `n` blocks, as the host writes it between the two commands. -/
def advancedBy (w : Word) (n : Nat) : Word := w + BitVec.ofNat 32 (16 * n)

theorem toNat_advancedBy {w : Word} {n1 n2 : Nat} (h : w.toNat + 16 * (n1 + n2) ≤ memorySize) (hpos : 0 < n2) :
    (advancedBy w n1).toNat = w.toNat + 16 * n1 := by
  unfold memorySize at h
  rw [advancedBy, BitVec.toNat_add, BitVec.toNat_ofNat, Nat.add_mod_mod, Nat.mod_eq_of_lt (by omega)]

section
variable {src dst : Word} {n1 n2 : Nat} (hfit : MessageFits src.toNat dst.toNat (n1 + n2))
include hfit

theorem messageFits_advancedBy : MessageFits (advancedBy src n1).toNat (advancedBy dst n1).toNat n2 := by
  obtain rfl | hpos := Nat.eq_zero_or_pos n2
  · have hs : (advancedBy src n1).toNat < memorySize := (advancedBy src n1).isLt
    have hd : (advancedBy dst n1).toNat < memorySize := (advancedBy dst n1).isLt
    constructor <;> omega
  · rw [toNat_advancedBy hfit.srcInside hpos, toNat_advancedBy hfit.dstInside hpos]
    exact hfit.rest

theorem requestsAdmitted_advancedBy {p : Platform} (hreq : requestsAdmitted p src dst (n1 + n2)) :
    requestsAdmitted p (advancedBy src n1) (advancedBy dst n1) n2 := by
  intro i hi
  have hpos : 0 < n2 := by omega
  have hadm := hreq (n1 + i) (by omega)
  unfold blockAddress at hadm ⊢
  rwa [toNat_advancedBy hfit.srcInside hpos, toNat_advancedBy hfit.dstInside hpos, Nat.add_assoc, Nat.add_assoc,
    ← Nat.mul_add]

/-- The later blocks, found by the registers the host advanced, make the message whole. -/
theorem messageOutput_advancedBy (g : Block → Block → BlockResult) (iv : Block) {m : Memory} (hrise : m.Rising) :
    messageOutput g (messageIv g iv m src.toNat n1) (messageOutput g iv m src.toNat dst.toNat n1)
      (advancedBy src n1).toNat (advancedBy dst n1).toNat n2 = messageOutput g iv m src.toNat dst.toNat (n1 + n2) := by
  obtain rfl | hpos := Nat.eq_zero_or_pos n2
  · rfl
  · rw [toNat_advancedBy hfit.srcInside hpos, toNat_advancedBy hfit.dstInside hpos, messageOutput_add g iv hrise hfit]

theorem messageIv_advancedBy (g : Block → Block → BlockResult) (iv : Block) {m : Memory} (hrise : m.Rising) :
    messageIv g (messageIv g iv m src.toNat n1) (messageOutput g iv m src.toNat dst.toNat n1)
      (advancedBy src n1).toNat n2 = messageIv g iv m src.toNat (n1 + n2) := by
  obtain rfl | hpos := Nat.eq_zero_or_pos n2
  · rfl
  · rw [toNat_advancedBy hfit.srcInside hpos, messageIv_add g iv hrise hfit]

end

theorem unlessBusy_idle {s : State} (h : s.seq = .idle) (a : Answer) : unlessBusy s a = a :=
  if_neg (by simp [busy_idle h])

/-- While Idle the host's write of a register that BUSY locks takes effect (R22, R43). -/
theorem step_hostWrite_idle {s : State} {off : Nat} {v : Word} {r : Reg} {rest : List Move} {write : Answer}
    (hi : s.seq = .idle) (hm : s.moves = hostWrite s.platform off v :: rest) (hr : regAt off = some r)
    (hw : writeReg r v { s with moves := rest } = unlessBusy { s with moves := rest } write) : step s = write :=
  ((step_hostWrite hm hr).trans hw).trans (unlessBusy_idle (s := { s with moves := rest }) hi write)

/-- While Idle the host's write of LEN stores it (R22). -/
theorem step_writeLen {s : State} {v : Word} {rest : List Move} (hi : s.seq = .idle)
    (hm : s.moves = hostWrite s.platform 0x078 v :: rest) : step s = .next { s with len := v, moves := rest } :=
  step_hostWrite_idle (r := .len) hi hm (by decide) rfl

/-- The host's writes between the two commands, into an Idle core. -/
theorem runSteps_writeOperands {s : State} {src dst len : Word} {rest : List Move} (hi : s.seq = .idle)
    (hm : s.moves = [hostWrite s.platform 0x070 src, hostWrite s.platform 0x074 dst, hostWrite s.platform 0x078 len] ++
      rest) : runSteps 3 s = .next { s with src := src, dst := dst, len := len, moves := rest } := by
  have hsrc := step_hostWrite_idle (r := .src) hi hm (by decide) rfl
  have hdst := step_hostWrite_idle (r := .dst) (rest := hostWrite s.platform 0x078 len :: rest)
    (s := { s with src := src, moves := hostWrite s.platform 0x074 dst :: hostWrite s.platform 0x078 len :: rest }) hi rfl
    (by decide) rfl
  have hlen := step_writeLen (rest := rest)
    (s := { s with src := src, dst := dst, moves := hostWrite s.platform 0x078 len :: rest }) hi rfl
  exact (runSteps_succ hsrc 2).trans ((runSteps_succ hdst 1).trans (runSteps_succ hlen 0))

/-- The state in which the first of the two commands is submitted. -/
def State.firstPart (c : Word) (n1 n2 : Nat) (s : State) : State :=
  { s with len := BitVec.ofNat 32 (16 * n1), moves := (splitMoves s c n1 n2).drop 1 }

/-- The state in which the second of the two commands is submitted. -/
def State.secondPart (f : List Word → Nat → Block → Block → BlockResult) (op : Op) (k : KeySize) (n1 n2 : Nat)
    (s : State) : State :=
  { (s.firstPart (encode (op.instr k.bits)) n1 n2).messageDone f op k n1 with
    src := advancedBy s.src n1
    dst := advancedBy s.dst n1
    len := BitVec.ofNat 32 (16 * n2)
    moves := [cmdWrite s.platform (encode (op.instr k.bits))] }

/-- The whole message as one command. -/
def State.wholeMessage (op : Op) (k : KeySize) (s : State) : State :=
  { s with moves := [cmdWrite s.platform (encode (op.instr k.bits))] }

section
variable {op : Op} {f : List Word → Nat → Block → Block → BlockResult} {k : KeySize} {n1 n2 : Nat} {s : State}
  (h : MessageSubmitted op f k (n1 + n2) (s.wholeMessage op k))
include h

theorem MessageSubmitted.firstPart :
    MessageSubmitted op f k n1 (s.firstPart (encode (op.instr k.bits)) n1 n2) where
  mode := h.mode
  idle := h.idle
  rising := h.rising
  len := h.toNat_length (Nat.le_add_right n1 n2)
  fits := h.fits.mono (Nat.le_add_right n1 n2)
  move := rfl

theorem MessageSubmitted.secondPart : MessageSubmitted op f k n2 (s.secondPart f op k n1 n2) where
  mode := h.mode
  idle := h.idle
  rising := rising_messageOutput h.rising _ _ _ _ _
  len := h.toNat_length (Nat.le_add_left n2 n1)
  fits := messageFits_advancedBy h.fits
  move := rfl

/-- The second command leaves what the one command leaves, the registers the host wrote and BLKCNT apart. -/
theorem MessageSubmitted.messageDone_secondPart :
    (s.secondPart f op k n1 n2).messageDone f op k n2 =
      { (s.wholeMessage op k).messageDone f op k (n1 + n2) with
        src := advancedBy s.src n1
        dst := advancedBy s.dst n1
        len := BitVec.ofNat 32 (16 * n2)
        blkCnt := BitVec.ofNat 32 n2 } := by
  have hchain : blockOfWords (s.secondPart f op k n1 n2).iv =
      messageIv (modeFn f k s) (blockOfWords s.iv) s.mem s.src.toNat n1 := blockOfWords_wordsOfBlock _
  rw [State.messageDone, hchain]
  exact congrArg₂ ((s.secondPart f op k n1 n2).completedWith op k n2 · ·)
    (messageOutput_advancedBy h.fits _ _ h.rising) (messageIv_advancedBy h.fits _ _ h.rising)

end

/-- The run of the two commands: LEN, the first command, the three registers, the second command. -/
theorem MessageSubmitted.runSteps_split {op : Op} {f : List Word → Nat → Block → Block → BlockResult} {k : KeySize}
    {n1 n2 : Nat} {s : State} (h : MessageSubmitted op f k (n1 + n2) (s.wholeMessage op k))
    (hreq : requestsAdmitted s.platform s.src s.dst (n1 + n2)) :
    runSteps (n1 + n2 + 10) { s with moves := splitMoves s (encode (op.instr k.bits)) n1 n2 } =
      .next ((s.secondPart f op k n1 n2).messageDone f op k n2) := by
  have hmoves : (s.firstPart (encode (op.instr k.bits)) n1 n2).moves.drop 1 = List.replicate (n1 + 2) .sequencer ++
    ([hostWrite s.platform 0x070 (advancedBy s.src n1), hostWrite s.platform 0x074 (advancedBy s.dst n1),
      hostWrite s.platform 0x078 (BitVec.ofNat 32 (16 * n2))] ++ [cmdWrite s.platform (encode (op.instr k.bits))]) := rfl
  have hlen : step { s with moves := splitMoves s (encode (op.instr k.bits)) n1 n2 } =
      .next (s.firstPart (encode (op.instr k.bits)) n1 n2) := step_writeLen h.idle rfl
  have hfirst := h.firstPart.runSteps_message (fun i hi => hreq i (by omega)) (hmoves ▸ turnsNext_replicate _ _)
  have hoperands : runSteps 3 ((s.firstPart (encode (op.instr k.bits)) n1 n2).messageDone f op k n1) =
      .next (s.secondPart f op k n1 n2) := by
    refine runSteps_writeOperands h.idle ?_
    show (s.firstPart (encode (op.instr k.bits)) n1 n2).moves.drop (n1 + 2 + 1) = _
    rw [Nat.add_comm, ← List.drop_drop, hmoves, List.drop_left' List.length_replicate]
    rfl
  have hsecond := h.secondPart.runSteps_message (requestsAdmitted_advancedBy h.fits hreq) (turnsNext_nil _)
  have hsteps : n1 + n2 + 10 = n1 + 3 + (3 + (n2 + 3)) + 1 := by omega
  rw [hsteps, runSteps_succ hlen, runSteps_add hfirst, runSteps_add hoperands, hsecond]

/-- Settles O26: both runs, and what the second command adds to the first. -/
theorem splitMessageContinues : Obligations.SplitMessageContinues := by
  intro op k s n1 n2 hop hi hwf hlen hsub hreq
  obtain ⟨f, hf⟩ : ∃ f, BlockFunction op f := exists_blockFunction (by rcases hop with rfl | rfl | rfl <;> rfl)
  have h : MessageSubmitted op f k (n1 + n2) (s.wholeMessage op k) :=
    messageSubmitted_of_checks hf hi hwf (show n1 + n2 = s.len.toNat / 16 by omega) hsub rfl
  refine ⟨_, h.runSteps_message hreq (turnsNext_nil _), hi, rfl, rfl, rfl, ?_⟩
  rw [h.runSteps_split hreq, h.messageDone_secondPart]
  rfl

end Sys2Proof.Machine
end

section
/-! PROOFS. A mode command that ends at a refused request (60_exceptions.md R207; 43_modes.md R177; 20_memory.md R65): the blocks
before it are done, and the error completion leaves what they left. -/

namespace Sys2Proof.Machine

/-- The output blocks read back from where they were written. -/
theorem messageBlocks_messageOutput_dst {m : Memory} (hrise : m.Rising) (g : Block → Block → BlockResult) (iv : Block)
    (src dst n : Nat) :
    messageBlocks (messageOutput g iv m src dst n) dst n = modeOutput g iv (messageBlocks m src n) := by
  have hsame := messageBlocks_writeBlocks_same hrise dst (modeOutput g iv (messageBlocks m src n))
  rwa [length_modeOutput, length_messageBlocks] at hsame

/-- No byte outside the output changes (R64). -/
theorem readByte_messageOutput_apart {m : Memory} (hrise : m.Rising) (g : Block → Block → BlockResult) (iv : Block)
    {src dst n a : Nat} (ha : a < dst ∨ dst + 16 * n ≤ a) :
    (messageOutput g iv m src dst n).readByte a = m.readByte a :=
  readByte_writeBlocks_apart hrise (by rwa [length_modeOutput, length_messageBlocks])

section
variable {op : Op} {f : List Word → Nat → Block → Block → BlockResult} {k : KeySize} {n j : Nat} {s : State}
  (h : MessageSubmitted op f k n s) (hj : j < n)
  (hrefused : memOk s.platform .read (blockAddress s.src j) = false ∨ memOk s.platform .write (blockAddress s.dst j) = false)
include h hj hrefused

/-- The block step of a refused block is the error completion (R177, R203). -/
theorem MessageSubmitted.step_refusedBlock (hturn : TurnsNext 1 (s.moves.drop (j + 2))) (work lastIn : Option Block) :
    step (s.afterBlocks f op k j work lastIn) =
      .next (raiseError .busError (s.afterBlocks f op k j work lastIn).moveTaken) := by
  obtain ⟨hsrc, hdst⟩ := h.fits.block_inside hj
  have hphase := (h.phase_runAfter j work lastIn).trans (if_pos hj)
  exact ((step_turnNext hturn rfl).trans (sequence_block h.mode hphase _)).trans (modeBlockStep_refused hsrc hdst hrefused)

/-- The run of a command whose block `j` is the first one refused (R207): it ends as a command of the `j` blocks before it does,
with BusError in ERRCODE. -/
theorem MessageSubmitted.runSteps_refused (hreq : requestsAdmitted s.platform s.src s.dst j)
    (hturn : TurnsNext (j + 2) (s.moves.drop 1)) :
    runSteps (j + 3) s = .next { s.messageDone f op k j with errCode := .busError } := by
  obtain ⟨hturns, hlast⟩ := (turnsNext_add (j + 1) 1 _).1 hturn
  rw [List.drop_drop, Nat.add_comm 1] at hlast
  obtain ⟨work, lastIn, hrun⟩ := h.runSteps_blocks hj.le hreq hturns
  have hmoves : (s.moves.drop (j + 2)).drop 1 = s.moves.drop (j + 3) := List.drop_drop
  rw [runSteps_add hrun 1, runSteps_succ (h.step_refusedBlock hj hrefused hlast work lastIn), runSteps_zero]
  simp only [raiseError, State.moveTaken, State.afterBlocks, State.messageDone, State.completedWith, hmoves, h.idle]

end

/-- Settles O23: the run up to the refused block, and what the written blocks leave of memory. -/
theorem busErrorKeepsTheBlocksBefore : Obligations.BusErrorKeepsTheBlocksBefore := by
  intro op f k s j hf hi hwf hj hsub hreq hrefused hm
  have h := messageSubmitted_of_checks hf hi hwf rfl hsub hm
  refine ⟨messageOutput (modeFn f k s) (blockOfWords s.iv) s.mem s.src.toNat s.dst.toNat j,
    messageBlocks_messageOutput_dst h.rising _ _ _ _ _, fun _ => readByte_messageOutput_apart h.rising _ _, ?_⟩
  rw [h.runSteps_refused hj hrefused hreq (by rw [hm]; exact turnsNext_nil _), State.messageDone, State.completedWith, hm]
  rfl

end Sys2Proof.Machine
end

section
/-! PROOFS. Reset (70_reset_and_hazards.md R230, R231): from any state every register reads as it does in the reset state, since
no register shows the parts that reset keeps. -/

namespace Sys2Proof.Machine

/-- What a register reads after reset does not depend on the state before it (R230). -/
theorem regValue_resetCore (s : State) (r : Reg) : regValue (resetCore s) r = regValue State.reset r := by
  cases r <;> rfl

/-- A reset move is the reset of the core, whatever it was doing (R230, R231). -/
theorem step_reset {s : State} {rest : List Move} (h : s.moves = .reset :: rest) :
    step s = .next (resetCore { s with moves := rest }) :=
  step_cons h

/-- Settles O36: the step is `resetCore`, whose registers read as those of the reset state (O35). -/
theorem resetFromEveryState : Obligations.ResetFromEveryState := by
  intro s rest hm
  obtain ⟨hvalues, hseq, hks, -, -⟩ := resetLeavesTheListedValues
  exact ⟨_, step_reset hm, fun r => (regValue_resetCore _ r).trans (hvalues r), hseq, hks, rfl, rfl, rfl, rfl⟩

end Sys2Proof.Machine
end
